-- ==== Sys2Proof/Word.lean ====
section
/-! DEFINITION. The word types of the block: the byte, the 32-bit host word and the pixel
(00_scope.md R9, 20_memory.md R37, R44). -/

namespace Sys2Proof

/-- A byte or a channel value: 8 bits (R9). -/
abbrev Byte := BitVec 8

/-- A word of the host port and a command word: 32 bits (R44, R59). -/
abbrev Word := BitVec 32

/-- A pixel: "a triple of 8-bit channel values (red, green, blue)" (R9, R42). -/
structure Pixel where
  r : Byte
  g : Byte
  b : Byte
  deriving DecidableEq, Repr, Inhabited

end Sys2Proof
end

