-- ==== Sys2Proof/Syntax.lean ====
section
/-! DEFINITION. The commands: one constructor per row of spec/opcode_table.json (30_encoding.md R61, R71, R73). -/

namespace Sys2Proof

/-- The command set, version 1. No command has an operand in its word (R62), so no constructor has an argument.
`encrypt` and `decrypt` are the two names R71 gives to the word of `xor`; `showMsg` is the row SHOW. -/
inductive Instr where
  | xor
  | encrypt
  | decrypt
  | append
  | locate
  | fits
  | embed
  | extract
  | hide
  | showMsg
  deriving DecidableEq, Repr

/-- The command whose word an instruction's name stands for: R71 "`ENCRYPT` and `DECRYPT` are two names for `XOR`". -/
def Instr.canonical : Instr → Instr
  | .xor => .xor
  | .encrypt => .xor
  | .decrypt => .xor
  | .append => .append
  | .locate => .locate
  | .fits => .fits
  | .embed => .embed
  | .extract => .extract
  | .hide => .hide
  | .showMsg => .showMsg

end Sys2Proof
end

