-- ==== Sys2Proof/WellFormed.lean ====
section
/-! DEFINITION. Well-formed commands: the ones a decoder can give. The encoding has no operand field to check
(30_encoding.md R59, R62); the one check is that the name is not a pseudo-instruction (R71). -/

namespace Sys2Proof

/-- A command is well formed when its name is the hardware command's own, not one of the two aliases that R71
makes another spelling of `XOR` (log 9). -/
def Instr.wellFormed (i : Instr) : Bool := decide (i.canonical = i)

end Sys2Proof
end

