-- ==== Sys2Proof/Decode.lean ====
section
/-! DEFINITION. Decoding and encoding the 32-bit command word (30_encoding.md R59, R61, R67, R71). -/

namespace Sys2Proof

/-- Why a word is illegal (R67). -/
inductive DecodeError where
  /-- "any word with a non-zero bit in 31:8". -/
  | nonzeroUpperBits
  /-- "opcode `0x00`, opcodes `0x09` to `0xFF`". -/
  | unassignedOpcode
  deriving DecidableEq, Repr

/-- Bits 7:0, `opcode` (R59). -/
def opcodeField (w : Word) : Byte := w.extractLsb' 0 8

/-- Bits 31:8, `zero` (R59). -/
def zeroField (w : Word) : BitVec 24 := w.extractLsb' 8 24

/-- The opcode map of R61. -/
def decodeOpcode (op : Nat) : Except DecodeError Instr :=
  match op with
  | 1 => .ok .xor
  | 2 => .ok .append
  | 3 => .ok .locate
  | 4 => .ok .fits
  | 5 => .ok .embed
  | 6 => .ok .extract
  | 7 => .ok .hide
  | 8 => .ok .showMsg
  | _ => .error .unassignedOpcode

/-- The decoder: "total: every one of the 2^32 words is either one of the eight commands or illegal" (R67). -/
def decode (w : Word) : Except DecodeError Instr :=
  if zeroField w ≠ 0 then .error .nonzeroUpperBits else decodeOpcode (opcodeField w).toNat

/-- The opcode of each row, from the table of R61 and the aliases of R71. -/
def opcodeOf : Instr → Byte
  | .xor => 0x01
  | .encrypt => 0x01
  | .decrypt => 0x01
  | .append => 0x02
  | .locate => 0x03
  | .fits => 0x04
  | .embed => 0x05
  | .extract => 0x06
  | .hide => 0x07
  | .showMsg => 0x08

/-- The encoder: format C of R59, bits 31:8 zero and bits 7:0 the opcode. -/
def encode (i : Instr) : Word := (0 : BitVec 24) ++ opcodeOf i

/-- The instruction the decoder reads from a row of the opcode table: `nbits` bits `w`, zeros above them. A
command is one 32-bit word (R59), so a longer row is none. -/
def decodeTableWord (nbits w : Nat) : Option Instr :=
  if nbits ≤ 32 then (decode (BitVec.ofNat 32 (w % 2 ^ nbits))).toOption else none

end Sys2Proof
end

