-- ==== Sys2Proof/Config.lean ====
section
/-! DEFINITION. What an implementation fixes (the four sizes of R8) and the free values of what the spec
leaves open (93_implementation_defined.md U1, U2). The opaque constants have no body: nothing can be proved of
their values, so a claim about them holds for every value. -/

namespace Sys2Proof.Config

/-- The implementation parameters (R8, U5). `PMAX = WMAX * HMAX` is not free, so it is no field. -/
structure Params where
  kmax : Nat
  dmax : Nat
  wmax : Nat
  hmax : Nat
  deriving DecidableEq, Repr

/-- `PMAX`, "fixed as `PMAX = WMAX * HMAX`, not free" (R8). -/
def Params.pmax (p : Params) : Nat := p.wmax * p.hmax

/-- The constraints of the table of R8: `KMAX >= 1`, `DMAX >= 3`, `DMAX >= floor(PMAX / 8)`. -/
abbrev Params.legal (p : Params) : Prop := 1 ≤ p.kmax ∧ 3 ≤ p.dmax ∧ p.pmax / 8 ≤ p.dmax

/-- The reference instance of R8: 256, 4096, 128, 128. -/
def Params.reference : Params := ⟨256, 4096, 128, 128⟩

/-- U1: what `KEY[i]` holds from reset number `epoch` until it is first written (R34, R162). Free. -/
opaque unwrittenKey : Nat → Nat → Byte

/-- U1 and U4: what `DATA[i]` holds from reset number `epoch` until it is first written (R34, R159). Free. -/
opaque unwrittenData : Nat → Nat → Byte

/-- U1 and U4: what `PIX[p]` holds from reset number `epoch` until it is first written (R34, R159). Free. -/
opaque unwrittenPix : Nat → Nat → Pixel

/-- U2: the word that the `n`-th host read of the BUSY window other than STATUS returns (R54). Free. -/
opaque busyRead : Nat → Word

/-- DESIGN CHOICE (log 8): the word a read of register `idx` returns when its value needs more than 32 bits.
R27 gives every register one 32-bit word and R8 bounds no parameter, so the spec states no value. Free. -/
opaque wideRegister : Nat → Nat → Word

end Sys2Proof.Config
end

