-- ==== Sys2Proof/Machine/State.lean ====
section
/-! DEFINITION. The state of one block (10_state.md R13), the environment's events, the ways a step can stop and
the state after reset (R34, R157). -/

namespace Sys2Proof.Machine

/-- One of the block's memories (R37): the elements written since reset, as (index, element) pairs with strictly
rising indices. An unlisted index has not been written since reset; what it reads as is a free value (U1, log 4). -/
abbrev Memory (α : Type) := List (Nat × α)

/-- The error codes of ERR (R24, R135). Codes 5, 6 and 7 "are never produced", so they are no constructors. -/
inductive Err where
  | none
  | key
  | capacity
  | illegal
  | overflow
  deriving DecidableEq, Repr

/-- The four spaces of the host port, `h_sel` (R37, R44). -/
inductive Region where
  | reg
  | key
  | data
  | pix
  deriving DecidableEq, Repr

/-- One host access (R44, R45): a write or a read of the element `idx` of a region. `h_we` and `h_re` "are never
both 1". -/
inductive Access where
  | write (sel : Region) (idx : Word) (wdata : Word)
  | read (sel : Region) (idx : Word)
  deriving DecidableEq, Repr

/-- One event of the environment (R175). -/
inductive Event where
  /-- The host makes one access. -/
  | access (a : Access)
  /-- Time passes until the running command has completed (R172); nothing when the block is idle. -/
  | sequencer
  /-- The input `rst` (R157, R159). -/
  | reset
  /-- The host's script line `WAIT` (R70): the read of STATUS, "repeated until bit 1 (`DONE`) is 1". -/
  | waitDone
  deriving DecidableEq, Repr

/-- The state. The fields from `key` to `lastCmd` are R13's; `hRData` is the output of R44; the rest are the
model's own (INVENTORY.md, State). -/
structure State where
  /-- The parameters of R8; no step changes them (log 3). -/
  cfg : Config.Params
  key : Memory Byte
  data : Memory Byte
  pix : Memory Pixel
  klen : Nat
  dlen : Nat
  width : Nat
  height : Nat
  byteIdx : Nat
  bitPos : BitVec 3
  acc : Byte
  pixIdx : Nat
  locIdx : Nat
  found : Bool
  fits : Bool
  err : Err
  busy : Bool
  done : Bool
  lastCmd : Word
  /-- `h_rdata`: the word the last host read returned (log 7). -/
  hRData : Word
  /-- The events still to come, oldest first (log 2). -/
  schedule : List Event
  /-- How many resets the run has seen: selects the free buffer contents (log 4, log 11). -/
  epoch : Nat
  /-- How many free values the BUSY-window reads have used (log 6, log 11). -/
  draws : Nat
  deriving DecidableEq, Repr

/-- The one fault of the model. -/
inductive Fault where
  /-- Raised by a command that would index a buffer outside its capacity: only in a state whose length registers
  or parameters are outside R8 and R15, which no run reaches (R43). Safe (log 10). -/
  | elementOutsideBuffer
  deriving DecidableEq, Repr

/-- The refusals of the model. No arm uses one. -/
inductive Refusal where
  /-- Raised by `exec` for a row of the opcode table that has no meaning yet. Safe. -/
  | notModelled (mnemonic : String)
  deriving DecidableEq, Repr

/-- The state after reset for the parameters `p` (R34, R157): the registers at the table's values, BITPOS = 7, the
memories with nothing listed, hence unspecified (U1). `hRData`, `schedule`, `epoch` and `draws` are the model's
choices (logs 2, 7, 11). -/
def State.resetFor (p : Config.Params) : State where
  cfg := p
  key := []
  data := []
  pix := []
  klen := 0
  dlen := 0
  width := 0
  height := 0
  byteIdx := 0
  bitPos := 7
  acc := 0
  pixIdx := 0
  locIdx := 0
  found := false
  fits := false
  err := .none
  busy := false
  done := false
  lastCmd := 0
  hRData := 0
  schedule := []
  epoch := 0
  draws := 0

/-- The state after reset on the reference instance of R8 (log 3). -/
def State.reset : State := State.resetFor Config.Params.reference

end Sys2Proof.Machine
end

