-- ==== Sys2Proof/Machine/Ops.lean ====
section
/-! DEFINITION. The named operations the command meanings share: reading and writing a memory, the counted loop,
accepting a command, completing it, and taking an error (30_encoding.md R60, 60_exceptions.md R143 to R145). -/

namespace Sys2Proof.Machine

/-- The element listed at index `i`, none when `i` has not been written since reset (R32). -/
def memRead {α : Type} : Memory α → Nat → Option α
  | [], _ => none
  | (j, v) :: m, i => if j = i then some v else memRead m i

/-- `m[i] <- v` (R11, R32): replaces the whole element and keeps the indices strictly rising. -/
def memWrite {α : Type} : Memory α → Nat → α → Memory α
  | [], i, v => [(i, v)]
  | (j, w) :: m, i, v =>
    if i < j then (i, v) :: (j, w) :: m
    else if i = j then (i, v) :: m
    else (j, w) :: memWrite m i v

/-- The element at index `i`: the last value written since reset, else the free value `free i` that the element
holds until it is first written (R32, U1, log 4). -/
def elementAt {α : Type} (free : Nat → α) (m : Memory α) (i : Nat) : α := (memRead m i).getD (free i)

/-- The canonical form: indices strictly rising. An unlisted index reads as no stored value, so no entry can equal
what an unlisted index reads as. -/
abbrev Memory.wf {α : Type} (m : Memory α) : Prop := m.Pairwise (fun x y => x.1 < y.1)

/-- Every listed index lies inside the buffer (R37: indices `0 .. cap-1`). -/
abbrev Memory.within {α : Type} (m : Memory α) (cap : Nat) : Prop := ∀ x ∈ m, x.1 < cap

/-- `for i in 0 .. n - 1: body` of R11: `body 0`, then `body 1`, up to `body (n - 1)`. -/
def forUpTo : Nat → (Nat → State → State) → State → State
  | 0, _, s => s
  | n + 1, body, s => body n (forUpTo n body s)

/-- The command word the sequencer runs: the one the last accepted CMD write recorded (R26, R60, log 2). -/
def fetchWord (s : State) : Word := s.lastCmd

/-- The acceptance of the word `w` at CMD when BUSY = 0 (R60): `LASTCMD <- w`, `DONE <- 0`, `ERR <- E_NONE`,
`BUSY <- 1`. It is also the return from an error: "that write clears both" DONE and ERR (R145). -/
def accept (w : Word) (s : State) : State :=
  { s with lastCmd := w, done := false, err := .none, busy := true }

/-- The completion without error (R60, R33): `BUSY <- 0`, `DONE <- 1`, `ERR` is `E_NONE`. -/
def complete (s : State) : State := { s with err := .none, busy := false, done := true }

/-- TAKING AN ERROR (R143): `ERR <- code`, `BUSY <- 0`, `DONE <- 1`. "Nothing is saved anywhere else; there is no
mode change, no mask, no stack, no vector and no transfer of control". -/
def raise (code : Err) (s : State) : State := { s with err := code, busy := false, done := true }

/-- Whether the extents `k`, `d`, `p` that a command indexes in KEY, DATA and PIX lie inside the buffers (R43). -/
abbrev withinBuffers (s : State) (k d p : Nat) : Prop :=
  k ≤ s.cfg.kmax ∧ d ≤ s.cfg.dmax ∧ p ≤ s.cfg.pmax

/-- Answers `t` when the extents that the command indexes from `s` lie inside the buffers, else faults (log 10). -/
def guarded (s : State) (k d p : Nat) (t : State) : Host.Outcome State Fault Refusal :=
  if withinBuffers s k d p then .next t else .fault .elementOutsideBuffer

end Sys2Proof.Machine
end

