-- ==== Sys2Proof/Machine/Operands.lean ====
section
/-! DEFINITION. The operands of the commands and the datapath on them: element reads and writes, the grid size, the
bit and blue-channel operations, the cursor, and the host word layouts (20_memory.md R39 to R46, 46_common_laws.md
R176, R179). -/

namespace Sys2Proof.Machine

/-- `KEY[i]` (R11): the last value written, or the free value of U1 when none was since reset. -/
def readKey (s : State) (i : Nat) : Byte := elementAt (Config.unwrittenKey s.epoch) s.key i

/-- `DATA[i]` (R11, U1). -/
def readData (s : State) (i : Nat) : Byte := elementAt (Config.unwrittenData s.epoch) s.data i

/-- `PIX[p]` (R11, U1). -/
def readPix (s : State) (p : Nat) : Pixel := elementAt (Config.unwrittenPix s.epoch) s.pix p

/-- `KEY[i] <- v` (R11). Only the host writes KEY (R29). -/
def writeKey (s : State) (i : Nat) (v : Byte) : State := { s with key := memWrite s.key i v }

/-- `DATA[i] <- v` (R11). -/
def writeData (s : State) (i : Nat) (v : Byte) : State := { s with data := memWrite s.data i v }

/-- `PIX[p] <- v` (R11). -/
def writePix (s : State) (p : Nat) (v : Pixel) : State := { s with pix := memWrite s.pix p v }

/-- `N = WIDTH * HEIGHT`, exact (R176; "never wraps; 0 when either factor is 0"). -/
def gridSize (s : State) : Nat := s.width * s.height

/-- The index of the pixel of row `r`, column `c`: `PIX[r * WIDTH + c]` (R41). -/
def pixelIndex (width r c : Nat) : Nat := r * width + c

/-- The byte of the key that the data byte `i` is paired with: `KEY[i mod KLEN]` (R77). -/
def keyByteFor (s : State) (i : Nat) : Byte := readKey s (i % s.klen)

/-- `(byte >> k) & 1` (R176): bit `k` of the byte, as the byte `00` or `01`. -/
def bitAt (v : Byte) (k : BitVec 3) : Byte := (v >>> k.toNat) &&& 1#8

/-- `(blue & 0xFE) | bit` (R106, R176). -/
def setLsb (blue bit : Byte) : Byte := (blue &&& 0xFE#8) ||| bit

/-- `(blue & 1) << k` (R176): bit 0 of blue placed at bit `k`. -/
def lsbPlacedAt (blue : Byte) (k : BitVec 3) : Byte := (blue &&& 1#8) <<< k.toNat

/-- The BitCursor `(byteIndex, bitPosition)` (R17). -/
structure Cursor where
  byteIdx : Nat
  bitPos : BitVec 3
  deriving DecidableEq, Repr

/-- The cursor a pass starts from: `(byteIndex=0, bitPosition=7)` (R17, R63). -/
def cursorStart : Cursor := ⟨0, 7⟩

/-- `next(b, k) = if k = 0 then (b + 1, 7) else (b, k - 1)` (R103; R18: BITPOS is a 3-bit down-counter). -/
def cursorNext (c : Cursor) : Cursor :=
  if c.bitPos = 0 then ⟨c.byteIdx + 1, 7⟩ else ⟨c.byteIdx, c.bitPos - 1⟩

/-- `embed_step` of R103, for the sequence `S` of length `len`: the next cursor and the output pixel. -/
def embedStep (len : Nat) (S : Nat → Byte) (c : Cursor) (px : Pixel) : Cursor × Pixel :=
  if c.byteIdx = len then (c, px)
  else (cursorNext c, { px with b := setLsb px.b (bitAt (S c.byteIdx) c.bitPos) })

/-- The extractor's state `(n, a, k)` (R114). -/
structure Extraction where
  count : Nat
  acc : Byte
  bitPos : BitVec 3
  deriving DecidableEq, Repr

/-- `extract_step` of R114 on a blue value: the next state and the byte it emits, if any. -/
def extractStep (e : Extraction) (blue : Byte) : Extraction × Option Byte :=
  if e.bitPos = 0 then (⟨e.count + 1, 0, 7⟩, some (e.acc ||| lsbPlacedAt blue e.bitPos))
  else (⟨e.count, e.acc ||| lsbPlacedAt blue e.bitPos, e.bitPos - 1⟩, none)

/-- The terminator's bytes `00 00 03`, in that order (R84). -/
def terminatorByte (j : Nat) : Byte := if j = 2 then 0x03 else 0x00

/-- `match(bs, i)` of R87 on DATA: `DATA[i] = 03`, `DATA[i-1] = 00`, `DATA[i-2] = 00`. -/
def matchAt (s : State) (i : Nat) : Bool :=
  readData s i = 0x03 && readData s (i - 1) = 0x00 && readData s (i - 2) = 0x00

/-- Host word of a byte: bits 7:0 the byte, bits 31:8 zero (R46). -/
def wordOfByte (v : Byte) : Word := v.zeroExtend 32

/-- The byte of a host word: `h_wdata[7:0]`, the rest ignored (R46). -/
def byteOfWord (w : Word) : Byte := w.extractLsb' 0 8

/-- Host word of a pixel: `[23:16] = R`, `[15:8] = G`, `[7:0] = B`, `[31:24] = 0` (R46). -/
def wordOfPixel (p : Pixel) : Word := (0 : Byte) ++ p.r ++ p.g ++ p.b

/-- The pixel of a host word (R46); `h_wdata[31:24]` is ignored. -/
def pixelOfWord (w : Word) : Pixel := ⟨w.extractLsb' 16 8, w.extractLsb' 8 8, w.extractLsb' 0 8⟩

end Sys2Proof.Machine
end

