-- ==== Sys2Proof/Machine/Flags.lean ====
section
/-! DEFINITION. The flags and the status word: the capacity comparison, the error codes and the layout of STATUS
(10_state.md R22 to R25, 42_capacity.md R96, 60_exceptions.md R135). -/

namespace Sys2Proof.Machine

/-- `bytes * 8 <= pixels`, exact on naturals: the comparator of FITS, EMBED and HIDE (R96, R97). -/
def fitsIn (bytes pixels : Nat) : Bool := decide (bytes * 8 ≤ pixels)

/-- The 3-bit code of an error (R135). -/
def errCode : Err → BitVec 3
  | .none => 0
  | .key => 1
  | .capacity => 2
  | .illegal => 3
  | .overflow => 4

/-- STATUS (R25): bit 0 BUSY, bit 1 DONE, bit 2 FOUND, bit 3 FITS, bits 6:4 ERR, bits 31:7 zero. -/
def statusWord (s : State) : Word :=
  (0 : BitVec 25) ++ errCode s.err ++ BitVec.ofBool s.fits ++ BitVec.ofBool s.found ++ BitVec.ofBool s.done
    ++ BitVec.ofBool s.busy

/-- `busy_o`, "equals STATUS.BUSY" (R44). -/
def busyO (s : State) : Bool := s.busy

/-- `done_o`, "a level equal to `STATUS.DONE`" (R44, R147). -/
def doneO (s : State) : Bool := s.done

end Sys2Proof.Machine
end

