-- ==== Sys2Proof/Machine/Capacity.lean ====
section
/-! DEFINITION. Unit CAP: the command FITS (42_capacity.md). -/

namespace Sys2Proof.Machine

/-- FITS (R96): the flag FITS says whether `DLEN * 8 <= WIDTH * HEIGHT`. It touches no buffer and raises nothing. -/
def execFits (s : State) : Host.Outcome State Fault Refusal :=
  .next (complete { s with fits := fitsIn s.dlen (gridSize s) })

end Sys2Proof.Machine
end

