-- ==== Sys2Proof/Machine/Cipher.lean ====
section
/-! DEFINITION. Unit XC: the repeating-key cipher and its command XOR with the aliases ENCRYPT and DECRYPT
(40_xor_cipher.md). -/

namespace Sys2Proof.Machine

/-- One byte step: `DATA[i] <- DATA[i] xor KEY[i mod KLEN]` (R77). -/
def cipherByte (i : Nat) (s : State) : State := writeData s i (readData s i ^^^ keyByteFor s i)

/-- The pass of XOR over `DATA[0 .. DLEN)`, in increasing `i` (R77, R78). -/
def cipherPass (s : State) : State := forUpTo s.dlen cipherByte s

/-- The cipher command: the key test before any byte is read (R76), then the pass (R77). -/
def runCipher (s : State) : Host.Outcome State Fault Refusal :=
  if s.klen = 0 then .next (raise .key s) else guarded s s.klen s.dlen 0 (complete (cipherPass s))

/-- XOR (R77). -/
def execXor (s : State) : Host.Outcome State Fault Refusal := runCipher s

/-- ENCRYPT, another name of XOR (R71, R82). -/
def execEncrypt (s : State) : Host.Outcome State Fault Refusal := runCipher s

/-- DECRYPT, another name of XOR (R71, R82). -/
def execDecrypt (s : State) : Host.Outcome State Fault Refusal := runCipher s

end Sys2Proof.Machine
end

