-- ==== Sys2Proof/Machine/Embedder.lean ====
section
/-! DEFINITION. Unit EMB: the least-significant-bit embedder and its command EMBED (43_lsb_embedder.md). -/

namespace Sys2Proof.Machine

/-- One step of the pass (R101): at `BYTEIDX = DLEN` the pixel is passed through unwritten, otherwise `embed_step` of
R103 gives the new pixel and cursor. `PIXIDX <- p + 1` in both cases. -/
def embedPixel (p : Nat) (s : State) : State :=
  if s.byteIdx = s.dlen then { s with pixIdx := p + 1 }
  else
    let r := embedStep s.dlen (readData s) ⟨s.byteIdx, s.bitPos⟩ (readPix s p)
    { writePix s p r.2 with byteIdx := r.1.byteIdx, bitPos := r.1.bitPos, pixIdx := p + 1 }

/-- The cursor "created at start of a pass" (R17, R20): `BYTEIDX <- 0 ; BITPOS <- 7 ; PIXIDX <- 0` (R101). -/
def embedStart (s : State) : State :=
  { s with byteIdx := cursorStart.byteIdx, bitPos := cursorStart.bitPos, pixIdx := 0 }

/-- The pass of EMBED over `PIX[0 .. N)`, the guard already passed (R101, R103). -/
def embedPass (s : State) : State := forUpTo (gridSize s) embedPixel (embedStart s)

/-- EMBED (R101): the capacity check first (R102), then the pass. It does not touch the flag FITS. -/
def execEmbed (s : State) : Host.Outcome State Fault Refusal :=
  if fitsIn s.dlen (gridSize s) then guarded s 0 s.dlen (gridSize s) (complete (embedPass s))
  else .next (raise .capacity s)

end Sys2Proof.Machine
end

