-- ==== Sys2Proof/Machine/Extractor.lean ====
section
/-! DEFINITION. Unit EXT: the least-significant-bit extractor and its command EXTRACT (44_lsb_extractor.md). -/

namespace Sys2Proof.Machine

/-- One step of the pass (R112, R114): the bit of `PIX[p].B` goes into ACC; a byte that is complete is stored at
`DATA[BYTEIDX]`. `PIXIDX <- p + 1`. -/
def extractPixel (p : Nat) (s : State) : State :=
  match extractStep ⟨s.byteIdx, s.acc, s.bitPos⟩ (readPix s p).b with
  | (e, some v) =>
    { writeData s s.byteIdx v with byteIdx := e.count, acc := e.acc, bitPos := e.bitPos, pixIdx := p + 1 }
  | (e, none) => { s with byteIdx := e.count, acc := e.acc, bitPos := e.bitPos, pixIdx := p + 1 }

/-- The start of the pass (R112): `BYTEIDX <- 0 ; BITPOS <- 7 ; ACC <- 0 ; PIXIDX <- 0`. -/
def extractStart (s : State) : State :=
  { s with byteIdx := cursorStart.byteIdx, bitPos := cursorStart.bitPos, acc := 0, pixIdx := 0 }

/-- The loop of EXTRACT over `PIX[0 .. N)` (R112). -/
def extractLoop (s : State) : State := forUpTo (gridSize s) extractPixel (extractStart s)

/-- The pass of EXTRACT: the loop, then `DLEN <- BYTEIDX` (R112). -/
def extractPass (s : State) : State := { extractLoop s with dlen := (extractLoop s).byteIdx }

/-- EXTRACT (R112). It raises nothing (R135). -/
def execExtract (s : State) : Host.Outcome State Fault Refusal :=
  guarded s 0 (gridSize s / 8) (gridSize s) (complete (extractPass s))

end Sys2Proof.Machine
end

