-- ==== Sys2Proof/Machine/Terminator.lean ====
section
/-! DEFINITION. Unit TFC: the terminator frame codec and its commands APPEND and LOCATE (41_terminator_codec.md). -/

namespace Sys2Proof.Machine

/-- `DATA[DLEN .. DLEN+3) <- 00 00 03 ; DLEN <- DLEN + 3` (R85). -/
def appendFrame (s : State) : State :=
  { writeData (writeData (writeData s s.dlen (terminatorByte 0)) (s.dlen + 1) (terminatorByte 1)) (s.dlen + 2)
      (terminatorByte 2) with dlen := s.dlen + 3 }

/-- APPEND (R85): `E_OVERFLOW` before any write when the three bytes do not fit. -/
def execAppend (s : State) : Host.Outcome State Fault Refusal :=
  if s.dlen + 3 > s.cfg.dmax then .next (raise .overflow s) else .next (complete (appendFrame s))

/-- The scan from index `i` over `n` indices: the least one with a match (R87, R91). -/
def scanFrom (s : State) (i : Nat) : Nat → Option Nat
  | 0 => none
  | n + 1 => if matchAt s i then some i else scanFrom s (i + 1) n

/-- `locate` of R87 on `DATA[0 .. DLEN)`: the scan of the indices `2 .. DLEN - 1`. -/
def locateIn (s : State) : Option Nat := scanFrom s 2 (s.dlen - 2)

/-- The effect of LOCATE (R88): FOUND, LOCIDX, and DLEN cut to `i - 2`, or all zero when there is no match (R90). -/
def locateCut (s : State) : State :=
  match locateIn s with
  | some i => { s with found := true, locIdx := i, dlen := i - 2 }
  | none => { s with found := false, locIdx := 0, dlen := 0 }

/-- LOCATE (R88). It raises nothing (R135). -/
def execLocate (s : State) : Host.Outcome State Fault Refusal :=
  guarded s 0 s.dlen 0 (complete (locateCut s))

end Sys2Proof.Machine
end

