-- ==== Sys2Proof/Machine/Pipelines.lean ====
section
/-! DEFINITION. The sequencer's composite commands HIDE and SHOW (45_pipelines.md). -/

namespace Sys2Proof.Machine

/-- The stages of HIDE after its checks: XOR, APPEND, EMBED (R121). -/
def hidePass (s : State) : State := embedPass (appendFrame (cipherPass s))

/-- HIDE (R121): the key check, then the capacity check on `DLEN + 3`, both before anything is written (R122); it
never raises `E_OVERFLOW` (R123). -/
def execHide (s : State) : Host.Outcome State Fault Refusal :=
  if s.klen = 0 then .next (raise .key s)
  else if fitsIn (s.dlen + 3) (gridSize s) then
    guarded s s.klen (s.dlen + 3) (gridSize s) (complete (hidePass s))
  else .next (raise .capacity s)

/-- The stages of SHOW after its check: EXTRACT, LOCATE, XOR over the shortened sequence (R127). -/
def showPass (s : State) : State := cipherPass (locateCut (extractPass s))

/-- SHOW (R127): the key check first (R128). -/
def execShow (s : State) : Host.Outcome State Fault Refusal :=
  if s.klen = 0 then .next (raise .key s)
  else guarded s s.klen (gridSize s / 8) (gridSize s) (complete (showPass s))

end Sys2Proof.Machine
end

