-- ==== Sys2Proof/Machine/Dispatch.lean ====
section
/-! DEFINITION. The dispatch of an accepted command to its meaning: one arm per constructor of Instr. -/

namespace Sys2Proof.Machine

def exec (i : Instr) (s : State) : Host.Outcome State Fault Refusal :=
  match i with
  | .xor => Sys2Proof.Machine.execXor s
  | .encrypt => Sys2Proof.Machine.execEncrypt s
  | .decrypt => Sys2Proof.Machine.execDecrypt s
  | .append => Sys2Proof.Machine.execAppend s
  | .locate => Sys2Proof.Machine.execLocate s
  | .fits => Sys2Proof.Machine.execFits s
  | .embed => Sys2Proof.Machine.execEmbed s
  | .extract => Sys2Proof.Machine.execExtract s
  | .hide => Sys2Proof.Machine.execHide s
  | .showMsg => Sys2Proof.Machine.execShow s

end Sys2Proof.Machine
end

