-- ==== Sys2Proof/Machine/HostPort.lean ====
section
/-! DEFINITION. The host port and reset: register map, element reads and writes, the BUSY window, the event `rst`
(10_state.md R15, R24 to R28; 20_memory.md R44 to R54; 70_reset_and_hazards.md R157, R159). -/

namespace Sys2Proof.Machine

/-- The region number on `h_sel` (R37). -/
def regionNumber : Region → BitVec 2
  | .reg => 0
  | .key => 1
  | .data => 2
  | .pix => 3

/-- The region a value of `h_sel` selects (R44). -/
def regionOf (sel : BitVec 2) : Region :=
  match sel.toNat with
  | 0 => .reg
  | 1 => .key
  | 2 => .data
  | _ => .pix

/-- `zext_32` of the register `idx` holding `v` (R27); a value of more than 32 bits reads as a free word (log 8). -/
def regWord (idx v : Nat) : Word := if v < 2 ^ 32 then BitVec.ofNat 32 v else Config.wideRegister idx v

/-- The word a read of REG index `idx` returns when BUSY = 0 (R27): CMD reads 0 (R24), indices 12 and above read
0 (R28). -/
def regRead (s : State) (idx : Nat) : Word :=
  match idx with
  | 1 => statusWord s
  | 2 => regWord 2 s.klen
  | 3 => regWord 3 s.dlen
  | 4 => regWord 4 s.width
  | 5 => regWord 5 s.height
  | 6 => regWord 6 s.locIdx
  | 7 => regWord 7 s.byteIdx
  | 8 => s.bitPos.zeroExtend 32
  | 9 => wordOfByte s.acc
  | 10 => regWord 10 s.pixIdx
  | 11 => s.lastCmd
  | _ => 0

/-- The word a host read of an element returns when BUSY = 0 (R46); 0 beyond the region (R48). -/
def elementRead (s : State) (sel : Region) (idx : Nat) : Word :=
  match sel with
  | .reg => regRead s idx
  | .key => if idx < s.cfg.kmax then wordOfByte (readKey s idx) else 0
  | .data => if idx < s.cfg.dmax then wordOfByte (readData s idx) else 0
  | .pix => if idx < s.cfg.pmax then wordOfPixel (readPix s idx) else 0

/-- The write of REG index `idx` when BUSY = 0: CMD accepts a command (R60); the four operand registers take a value
in their range and drop any other (R15); read-only and reserved registers ignore the write (R28). -/
def regWrite (s : State) (idx : Nat) (v : Word) : State :=
  match idx with
  | 0 => accept v s
  | 2 => if v.toNat ≤ s.cfg.kmax then { s with klen := v.toNat } else s
  | 3 => if v.toNat ≤ s.cfg.dmax then { s with dlen := v.toNat } else s
  | 4 => if v.toNat ≤ s.cfg.wmax then { s with width := v.toNat } else s
  | 5 => if v.toNat ≤ s.cfg.hmax then { s with height := v.toNat } else s
  | _ => s

/-- A host write of an element when BUSY = 0 (R46); ignored beyond the region (R48). -/
def elementWrite (s : State) (sel : Region) (idx : Nat) (v : Word) : State :=
  match sel with
  | .reg => regWrite s idx v
  | .key => if idx < s.cfg.kmax then writeKey s idx (byteOfWord v) else s
  | .data => if idx < s.cfg.dmax then writeData s idx (byteOfWord v) else s
  | .pix => if idx < s.cfg.pmax then writePix s idx (pixelOfWord v) else s

/-- A host write: "Every host write made while `BUSY = 1`, to any region, is ignored, including a write to CMD"
(R54). -/
def hostWrite (sel : Region) (idx v : Word) (s : State) : State :=
  if s.busy then s else elementWrite s sel idx.toNat v

/-- A host read. Idle, or of STATUS, it returns the element's word and changes nothing else (R50); while BUSY = 1 a
read of anything but STATUS "returns an unspecified value" (R54): a fresh free value (U2, log 6). -/
def hostRead (sel : Region) (idx : Word) (s : State) : State :=
  if s.busy = true ∧ ¬ (sel = .reg ∧ idx = 1) then
    { s with hRData := Config.busyRead s.draws, draws := s.draws + 1 }
  else { s with hRData := elementRead s sel idx.toNat }

/-- One host access (R44). -/
def hostAccess (a : Access) (s : State) : State :=
  match a with
  | .write sel idx v => hostWrite sel idx v s
  | .read sel idx => hostRead sel idx s

/-- One read of a `WAIT` (R70): STATUS is read, and the `WAIT` is over when the word read has bit 1 (`DONE`) set.
Otherwise the read is still to be repeated, after the time in which a running command completes (R172, log 14); on
an idle block with DONE = 0 that is for ever. -/
def pollStatus (s : State) : State :=
  let t := hostRead .reg 1 s
  if t.hRData.getLsbD 1 then t else { t with schedule := .sequencer :: .waitDone :: t.schedule }

/-- The event reset (R157), also during a command (R159): every register to its reset value; the memories are
unspecified from here on (U1, U4), a new epoch of free values with nothing listed (log 5). -/
def takeReset (s : State) : State :=
  { State.resetFor s.cfg with schedule := s.schedule, epoch := s.epoch + 1, draws := s.draws }

end Sys2Proof.Machine
end

