-- ==== Sys2Proof/Machine/Sequencer.lean ====
section
/-! DEFINITION. The sequencer's move and the environment's events (30_encoding.md R60, 70_reset_and_hazards.md R172
to R175). -/

namespace Sys2Proof.Machine

/-- Runs the accepted command word to its completion (R60): a legal word runs its command, an illegal one raises
`E_ILLEGAL` (R67, R137). -/
def runAccepted (s : State) : Host.Outcome State Fault Refusal :=
  match decode (fetchWord s) with
  | .ok i => exec i s
  | .error _ => .next (raise .illegal s)

/-- The sequencer's move: with BUSY = 1 the running command completes (R172), otherwise the block is idle and does
nothing (R158). -/
def sequencerMove (s : State) : Host.Outcome State Fault Refusal :=
  if s.busy then runAccepted s else .next s

/-- One event of the environment. -/
def takeEvent (e : Event) (s : State) : Host.Outcome State Fault Refusal :=
  match e with
  | .access a => .next (hostAccess a s)
  | .sequencer => sequencerMove s
  | .reset => .next (takeReset s)
  | .waitDone => .next (pollStatus s)

end Sys2Proof.Machine
end

