-- ==== Sys2Proof/Machine/Step.lean ====
section
/-! DEFINITION. One step of the machine, and how the host's check places a command (70_reset_and_hazards.md R174). -/

namespace Sys2Proof.Machine

/-- One step: the oldest event of the schedule happens; with no event left the sequencer moves, so that a started
command completes "with no further action from the host" (R172). -/
def step (s : State) : Host.Outcome State Fault Refusal :=
  match s.schedule with
  | [] => sequencerMove s
  | e :: rest => takeEvent e { s with schedule := rest }

/-- `s` just after the acceptance of the command word at CMD (R60), with the sequencer next to move: the block
fetches from no memory, its command word is the one in LASTCMD (R26, R56, log 2). -/
def State.withFetchWord (s : State) (nbits w : Nat) : State :=
  { accept (BitVec.ofNat 32 (w % 2 ^ nbits)) s with schedule := .sequencer :: s.schedule }

end Sys2Proof.Machine
end

