-- ==== Sys2Proof/Machine/Script.lean ====
section
/-! DEFINITION. The host-script notation that stands in for an assembler (00_scope.md R12, 30_encoding.md R70): what
port accesses each script line stands for. -/

namespace Sys2Proof.Machine

/-- The registers of region REG that a script names (R27). -/
inductive RegName where
  | cmd
  | status
  | klen
  | dlen
  | width
  | height
  | locIdx
  | byteIdx
  | bitPos
  | acc
  | pixIdx
  | lastCmd
  deriving DecidableEq, Repr

/-- The REG index of each register (R27). -/
def regIndex : RegName → Word
  | .cmd => 0
  | .status => 1
  | .klen => 2
  | .dlen => 3
  | .width => 4
  | .height => 5
  | .locIdx => 6
  | .byteIdx => 7
  | .bitPos => 8
  | .acc => 9
  | .pixIdx => 10
  | .lastCmd => 11

/-- A script line (R70, with the LOAD shorthands). -/
inductive ScriptLine where
  | wrReg (name : RegName) (v : Word)
  | wrKey (i : Word) (b : Byte)
  | wrData (i : Word) (b : Byte)
  | wrPix (p : Word) (px : Pixel)
  | cmd (i : Instr)
  | wait
  | rdReg (name : RegName)
  | rdKey (i : Word)
  | rdData (i : Word)
  | rdPix (p : Word)
  | loadKey (bs : List Byte)
  | loadData (bs : List Byte)
  | loadPix (w h : Word) (pxs : List Pixel)
  deriving DecidableEq, Repr

/-- The writes of a sequence to consecutive indices of a region, from index `i` on (R70, LOAD). An index of 2^32 or more,
for which the spec gives no encoding, is taken modulo 2^32: DESIGN CHOICE, log 18. -/
def writeSeq (sel : Region) (i : Nat) : List Word → List Event
  | [] => []
  | w :: ws => .access (.write sel (BitVec.ofNat 32 i) w) :: writeSeq sel (i + 1) ws

/-- The events a script line stands for (R70). `WAIT` is one event, whose STATUS read the machine repeats until it
shows DONE = 1 (`pollStatus`, log 14). A LOAD of 2^32 or more elements writes its length modulo 2^32: DESIGN CHOICE,
log 18. -/
def scriptEvents : ScriptLine → List Event
  | .wrReg name v => [.access (.write .reg (regIndex name) v)]
  | .wrKey i b => [.access (.write .key i (wordOfByte b))]
  | .wrData i b => [.access (.write .data i (wordOfByte b))]
  | .wrPix p px => [.access (.write .pix p (wordOfPixel px))]
  | .cmd i => [.access (.write .reg (regIndex .cmd) (encode i))]
  | .wait => [.waitDone]
  | .rdReg name => [.access (.read .reg (regIndex name))]
  | .rdKey i => [.access (.read .key i)]
  | .rdData i => [.access (.read .data i)]
  | .rdPix p => [.access (.read .pix p)]
  | .loadKey bs =>
    writeSeq .key 0 (bs.map wordOfByte) ++ [.access (.write .reg (regIndex .klen) (BitVec.ofNat 32 bs.length))]
  | .loadData bs =>
    writeSeq .data 0 (bs.map wordOfByte) ++ [.access (.write .reg (regIndex .dlen) (BitVec.ofNat 32 bs.length))]
  | .loadPix w h pxs =>
    writeSeq .pix 0 (pxs.map wordOfPixel) ++
      [.access (.write .reg (regIndex .width) w), .access (.write .reg (regIndex .height) h)]

/-- A script as the schedule of its lines in order (R12). -/
def scriptSchedule (ls : List ScriptLine) : List Event := ls.flatMap scriptEvents

end Sys2Proof.Machine
end

