-- ==== Sys2Proof/Safety.lean ====
section
/-! DEFINITION. What counts as a legal state: the ranges of the registers, the form of the memories and the status
handshake (00_scope.md R8, 10_state.md R13, R15, R25, R27). -/

namespace Sys2Proof.Machine

/-- The parameters satisfy R8 and the four operand registers their ranges of R15. It is all a command needs in order
to index no buffer outside its capacity (R43). -/
abbrev State.InRange (s : State) : Prop :=
  s.cfg.legal ∧ s.klen ≤ s.cfg.kmax ∧ s.dlen ≤ s.cfg.dmax ∧ s.width ≤ s.cfg.wmax ∧ s.height ≤ s.cfg.hmax

/-- The read-only registers lie in the ranges of R13. -/
abbrev State.ResultsInRange (s : State) : Prop :=
  s.byteIdx ≤ s.cfg.dmax ∧ s.pixIdx ≤ s.cfg.pmax ∧ s.locIdx < s.cfg.dmax

/-- The memories are in canonical form and list only elements of their buffers (R37). -/
abbrev State.MemoriesOk (s : State) : Prop :=
  (Memory.wf s.key ∧ Memory.within s.key s.cfg.kmax) ∧ (Memory.wf s.data ∧ Memory.within s.data s.cfg.dmax) ∧
    (Memory.wf s.pix ∧ Memory.within s.pix s.cfg.pmax)

/-- "`BUSY` and `DONE` are never both 1" (R25). -/
abbrev State.HandshakeOk (s : State) : Prop := ¬ (s.busy = true ∧ s.done = true)

/-- The invariant of every run (R8, R13, R15, R25). -/
abbrev State.Inv (s : State) : Prop := s.InRange ∧ s.ResultsInRange ∧ s.MemoriesOk ∧ s.HandshakeOk

/-- The result fields agree with one another: no error while a command runs (R60), an error only after a completion
(R143), LOCIDX 0 unless FOUND (R23, R90), and a found index is at least 2 (R88). -/
abbrev State.Coherent (s : State) : Prop :=
  (s.busy = true → s.err = .none) ∧ (s.err ≠ .none → s.done = true) ∧ (s.found = false → s.locIdx = 0) ∧
    (s.found = true → 2 ≤ s.locIdx)

/-- Every element of KEY reads as before. -/
abbrev sameKey (s t : State) : Prop := ∀ i, readKey t i = readKey s i

/-- Every element of DATA reads as before. -/
abbrev sameData (s t : State) : Prop := ∀ i, readData t i = readData s i

/-- Every element of PIX reads as before. -/
abbrev samePix (s t : State) : Prop := ∀ p, readPix t p = readPix s p

/-- The commands that run the cipher command alone: XOR and its two other names (R71). -/
abbrev isCipher (i : Instr) : Prop := i = .xor ∨ i = .encrypt ∨ i = .decrypt

/-- The bit of the sequence `S` that pixel `p` carries: `S[p div 8][7 - (p mod 8)]` (R65, R105). -/
def payloadBit (S : Nat → Byte) (p : Nat) : Byte := bitAt (S (p / 8)) (BitVec.ofNat 3 (7 - p % 8))

/-- `sum over j in 0 .. m-1 of (B j & 1) << (7 - j)`: the byte (`m = 8`) or the partial byte that the blue values
`B 0, B 1, ...` spell (R65, R115, R116). -/
def packedByte (B : Nat → Byte) : Nat → Byte
  | 0 => 0
  | m + 1 => packedByte B m + ((B m &&& 1#8) <<< (7 - m))

/-- The byte `k` of the stream that the grid of `s` spells (R65, R115). -/
def streamByte (s : State) (k : Nat) : Byte := packedByte (fun j => (readPix s (8 * k + j)).b) 8

/-- `00 00 03` occurs in `S` ending at index `i` (R87). -/
abbrev markerEndsAt (S : Nat → Byte) (i : Nat) : Prop := 2 ≤ i ∧ S i = 0x03 ∧ S (i - 1) = 0x00 ∧ S (i - 2) = 0x00

/-- `i` is the least index below `n` at which the marker ends: `locate(S[0 .. n)) = Found(i, S[0 .. i-2))` (R87). -/
def firstMarker (S : Nat → Byte) (n i : Nat) : Prop :=
  i < n ∧ markerEndsAt S i ∧ ∀ j < i, ¬ markerEndsAt S j

/-- `S[0 .. n)` does not contain `00 00 03` as three consecutive bytes: `locate` is NotFound (R87, R92). -/
def noMarker (S : Nat → Byte) (n : Nat) : Prop := ∀ j < n, ¬ markerEndsAt S j

end Sys2Proof.Machine
end

