-- ==== Sys2Proof/Certificates/Slice0/Obligations.lean ====
section
/-! DEFINITION. The statements for the provers: def Obligations.<Name> : Prop, in the order of OBLIGATIONS.json. -/

section
open Sys2Proof Sys2Proof.Machine

/-! ## Reset and idling -/

/-- R34: the state after reset, for every choice of the parameters: the registers at the table's values. The last three
clauses are the model's choice (log 4, a DESIGN CHOICE within U1): R34 calls the buffers unspecified, and here each
element reads as the free value of its epoch and index. -/
def Obligations.ResetLeavesTheTableValues : Prop :=
  ∀ p : Config.Params,
    (State.resetFor p).klen = 0 ∧ (State.resetFor p).dlen = 0 ∧ (State.resetFor p).width = 0 ∧
    (State.resetFor p).height = 0 ∧ (State.resetFor p).byteIdx = 0 ∧ (State.resetFor p).pixIdx = 0 ∧
    (State.resetFor p).acc = 0 ∧ (State.resetFor p).locIdx = 0 ∧ (State.resetFor p).bitPos = 7 ∧
    (State.resetFor p).found = false ∧ (State.resetFor p).fits = false ∧ (State.resetFor p).busy = false ∧
    (State.resetFor p).done = false ∧ errCode (State.resetFor p).err = 0 ∧ (State.resetFor p).lastCmd = 0 ∧
    (∀ i, readKey (State.resetFor p) i = Config.unwrittenKey (State.resetFor p).epoch i) ∧
    (∀ i, readData (State.resetFor p) i = Config.unwrittenData (State.resetFor p).epoch i) ∧
    (∀ q, readPix (State.resetFor p) q = Config.unwrittenPix (State.resetFor p).epoch q)

/-- R157, R159: the event reset, from every state, also with a command running: every register takes its reset value,
no error is recorded, and no buffer element keeps a known value. That the free contents are those of a new epoch,
that `hRData` goes to 0 and that the parameters, the schedule and `draws` stay is the model's choice (logs 3, 5, 7, 11). -/
def Obligations.ResetEventRestoresTheRegistersFromAnyState : Prop :=
  ∀ (s : State) (rest : List Event), s.schedule = .reset :: rest →
    step s = .next { State.resetFor s.cfg with schedule := rest, epoch := s.epoch + 1, draws := s.draws }

/-- R158: an idle block does nothing when no event comes, and the passing of time changes nothing. -/
def Obligations.IdleBlockDoesNothing : Prop :=
  ∀ s : State, s.busy = false →
    (s.schedule = [] → step s = .next s) ∧
    (∀ rest, s.schedule = .sequencer :: rest → step s = .next { s with schedule := rest })

/-! ## Encoding -/

/-- R61, R71: the decoder reads every command's word as that command, and the word of the two aliases as XOR. -/
def Obligations.DecodeOfEncodeIsTheCommand : Prop :=
  ∀ i : Instr, (i.wellFormed = true → decode (encode i) = .ok i) ∧
    (i.wellFormed = false → decode (encode i) = .ok .xor)

/-- R67: "every one of the 2^32 words is either one of the eight commands or illegal": a word decodes to a command
exactly when it is that command's word, and is illegal exactly when a bit of 31:8 is set or the opcode is not
among 1 to 8. -/
def Obligations.DecoderAcceptsExactlyTheEightWords : Prop :=
  ∀ w : Word,
    (∀ i : Instr, decode w = .ok i ↔ i.wellFormed = true ∧ encode i = w) ∧
    ((∃ e, decode w = .error e) ↔
      w.extractLsb' 8 24 ≠ 0 ∨ (w.extractLsb' 0 8).toNat = 0 ∨ 9 ≤ (w.extractLsb' 0 8).toNat)

/-- R59, R61, R67: words written out bit by bit from the encoding of each family, and illegal ones. -/
def Obligations.SampleWordsDecode : Prop :=
  decode 0b00000000000000000000000000000001#32 = .ok .xor ∧
  decode 0b00000000000000000000000000000010#32 = .ok .append ∧
  decode 0b00000000000000000000000000000011#32 = .ok .locate ∧
  decode 0b00000000000000000000000000000100#32 = .ok .fits ∧
  decode 0b00000000000000000000000000000101#32 = .ok .embed ∧
  decode 0b00000000000000000000000000000110#32 = .ok .extract ∧
  decode 0b00000000000000000000000000000111#32 = .ok .hide ∧
  decode 0b00000000000000000000000000001000#32 = .ok .showMsg ∧
  decode 0b00000000000000000000000000000000#32 = .error .unassignedOpcode ∧
  decode 0b00000000000000000000000000001001#32 = .error .unassignedOpcode ∧
  decode 0b00000000000000000000000100000001#32 = .error .nonzeroUpperBits

/-! ## The step -/

/-- A step with a command running and the sequencer to move runs the command that the accepted word decodes to
(R56, R60); around `exec` the step only takes the event off the schedule. -/
def Obligations.StepRunsTheAcceptedCommand : Prop :=
  ∀ (s : State) (i : Instr), s.busy = true → decode s.lastCmd = .ok i →
    (s.schedule = [] → step s = exec i s) ∧
    (∀ rest, s.schedule = .sequencer :: rest → step s = exec i { s with schedule := rest })

/-- R44, R53: the host's accesses take effect one at a time in the order it makes them. -/
def Obligations.StepDeliversTheNextHostAccess : Prop :=
  ∀ (s : State) (a : Access) (rest : List Event), s.schedule = .access a :: rest →
    step s = .next (hostAccess a { s with schedule := rest })

/-- R60: a write of `w` to CMD with BUSY = 0 records `w`, clears DONE and ERR and sets BUSY, and changes nothing else;
with BUSY = 1 nothing happens. -/
def Obligations.CmdWriteIsAcceptedWhenIdle : Prop :=
  ∀ (s : State) (w : Word),
    (s.busy = false → hostWrite .reg 0 w s = { s with lastCmd := w, done := false, err := .none, busy := true }) ∧
    (s.busy = true → hostWrite .reg 0 w s = s)

/-- R172: every accepted command, legal or not, completes with no further action from the host. That the acceptance is a
step that leaves BUSY = 1 and DONE = 0, and that exactly one later step completes the command, is the model's choice
(log 1; for an illegal word that part is DEDUCED). -/
def Obligations.EveryAcceptedCommandCompletes : Prop :=
  ∀ (s : State) (w : Word), s.InRange → s.busy = false → s.schedule = [.access (.write .reg 0 w)] →
    ∃ u t, step s = .next u ∧ u.busy = true ∧ u.done = false ∧ u.lastCmd = w ∧
      step u = .next t ∧ t.busy = false ∧ t.done = true ∧ t.lastCmd = w

/-- R67: a word that is no command's word, which is one with a bit of 31:8 set or an opcode not among 1 to 8, is
accepted and recorded in LASTCMD, and its completion leaves ERR = E_ILLEGAL, DONE = 1 and nothing else changed. That
the word is accepted with BUSY = 1 in one step and raises in a later one is the model's choice (log 1, that part
DEDUCED: R60 writes the raise under the acceptance). -/
def Obligations.IllegalWordReportsAndChangesNothingElse : Prop :=
  ∀ (s : State) (w : Word) (rest : List Event), s.busy = false →
    s.schedule = .access (.write .reg 0 w) :: .sequencer :: rest → (∀ i : Instr, encode i ≠ w) →
    (w.extractLsb' 8 24 ≠ 0 ∨ (w.extractLsb' 0 8).toNat = 0 ∨ 9 ≤ (w.extractLsb' 0 8).toNat) ∧
    ∃ u, step s = .next u ∧ u.busy = true ∧ u.lastCmd = w ∧
      step u = .next { s with schedule := rest, lastCmd := w, err := .illegal, busy := false, done := true }

/-- R70: `WAIT` reads STATUS again and again until the word read has DONE = 1. With DONE = 1 the first read ends it; with
DONE = 0 it is still to be done after the read; on an idle block with DONE = 0 no number of steps ends it. After `CMD`
it ends, with DONE = 1 on the port and the command completed. That a running command completes between two reads, so
that exactly one read shows DONE = 0, is the model's choice (log 14, with the two steps of log 1). -/
def Obligations.CmdThenWaitReadsDone : Prop :=
  (∀ (s : State) (rest : List Event), s.schedule = .waitDone :: rest →
    (s.done = true → step s = .next { s with schedule := rest, hRData := statusWord s }) ∧
    (s.done = false →
      step s = .next { s with schedule := .sequencer :: .waitDone :: rest, hRData := statusWord s }) ∧
    (s.busy = false → s.done = false → ∀ n, ∃ t, Sys2Proof.core.run n s = .next t ∧ t.done = false ∧
      (t.schedule = .waitDone :: rest ∨ t.schedule = .sequencer :: .waitDone :: rest))) ∧
  ∀ (s : State) (i : Instr), s.InRange → s.busy = false → s.schedule = scriptSchedule [.cmd i, .wait] →
    ∃ t, Sys2Proof.core.run 4 s = .next t ∧ t.schedule = [] ∧ t.done = true ∧ t.busy = false ∧
      t.lastCmd = encode i ∧ t.hRData = statusWord t ∧ t.hRData.getLsbD 1 = true

/-! ## XOR, ENCRYPT, DECRYPT -/

/-- R76, R77: XOR and its two names: with an empty key E_KEY and nothing else changed; with a key every byte of
`DATA[0 .. DLEN)` is replaced by its exclusive-or with the key byte at its index modulo the key length, and
nothing else changes but the completion's ERR, BUSY and DONE. -/
def Obligations.XorReplacesDataByKeyedBytes : Prop :=
  ∀ (i : Instr) (s : State), isCipher i →
    encode i = 0x00000001 ∧
    (s.klen = 0 → exec i s = .next { s with err := .key, busy := false, done := true }) ∧
    (s.InRange → 1 ≤ s.klen → ∃ t, exec i s = .next t ∧
      (∀ j < s.dlen, readData t j = readData s j ^^^ readKey s (j % s.klen)) ∧
      (∀ j, s.dlen ≤ j → readData t j = readData s j) ∧ sameKey s t ∧ samePix s t ∧
      t = { s with data := t.data, err := .none, busy := false, done := true })

/-- R136: the commands that run the cipher end in E_KEY with an empty key, whatever the rest of the state, and change
nothing else. -/
def Obligations.EmptyKeyAbortsEveryCipherCommand : Prop :=
  ∀ (i : Instr) (s : State), (isCipher i ∨ i = .hide ∨ i = .showMsg) → s.klen = 0 →
    exec i s = .next { s with err := .key, busy := false, done := true }

/-- R79: the cipher is its own inverse, under any of its names. -/
def Obligations.XorTwiceRestoresData : Prop :=
  ∀ (i j : Instr) (s t : State), isCipher i → isCipher j → s.InRange → 1 ≤ s.klen → exec i s = .next t →
    ∃ u, exec j t = .next u ∧ sameData s u ∧ u.dlen = s.dlen ∧ sameKey s u ∧ u.klen = s.klen

/-- R81: bytes `klen` apart use the same key byte, and a key of `00` bytes is the identity. -/
def Obligations.CipherIsPeriodicInTheKey : Prop :=
  ∀ (i : Instr) (s t : State), isCipher i → s.InRange → 1 ≤ s.klen → exec i s = .next t →
    (∀ j, j + s.klen < s.dlen →
      readData t j ^^^ readData s j = readData t (j + s.klen) ^^^ readData s (j + s.klen)) ∧
    ((∀ k < s.klen, readKey s k = 0) → sameData s t)

/-! ## APPEND and LOCATE -/

/-- R85: APPEND writes `00 00 03` at DLEN and raises DLEN by 3, or ends in E_OVERFLOW with nothing else changed when
the three bytes do not fit. -/
def Obligations.AppendWritesTheTerminator : Prop :=
  ∀ s : State,
    encode .append = 0x00000002 ∧
    (s.cfg.dmax < s.dlen + 3 → exec .append s = .next { s with err := .overflow, busy := false, done := true }) ∧
    (s.dlen + 3 ≤ s.cfg.dmax → ∃ t, exec .append s = .next t ∧
      readData t s.dlen = 0x00 ∧ readData t (s.dlen + 1) = 0x00 ∧ readData t (s.dlen + 2) = 0x03 ∧
      (∀ j, (j < s.dlen ∨ s.dlen + 3 ≤ j) → readData t j = readData s j) ∧ sameKey s t ∧ samePix s t ∧
      t = { s with data := t.data, dlen := s.dlen + 3, err := .none, busy := false, done := true })

/-- R88: LOCATE reports the first terminator of `DATA[0 .. DLEN)` and cuts the sequence before it, or reports that
there is none with DLEN = 0. It writes no byte. -/
def Obligations.LocateCutsAtTheFirstTerminator : Prop :=
  ∀ s : State, s.InRange →
    encode .locate = 0x00000003 ∧
    (∀ i, firstMarker (readData s) s.dlen i → exec .locate s =
      .next { s with found := true, locIdx := i, dlen := i - 2, err := .none, busy := false, done := true }) ∧
    (noMarker (readData s) s.dlen → exec .locate s =
      .next { s with found := false, locIdx := 0, dlen := 0, err := .none, busy := false, done := true })

/-- R92: on a frame `c` followed by `00 00 03` and any bytes, LOCATE reports the true end exactly when `c` does not
contain `00 00 03`, otherwise the first place where it does. -/
def Obligations.LocateOnAFrameFindsTheEarliestMarker : Prop :=
  ∀ (s : State) (L : Nat), s.InRange → L + 3 ≤ s.dlen →
    readData s L = 0x00 → readData s (L + 1) = 0x00 → readData s (L + 2) = 0x03 →
    ∃ t, exec .locate s = .next t ∧ t.found = true ∧ sameData s t ∧
      (noMarker (readData s) L ↔ t.locIdx = L + 2 ∧ t.dlen = L) ∧
      (∀ j, firstMarker (readData s) L j → t.locIdx = j ∧ t.dlen = j - 2)

/-- R95: APPEND then LOCATE restores the sequence and its length exactly when it did not contain `00 00 03`; then
LOCIDX = L + 2. -/
def Obligations.AppendThenLocateRestoresUnmarkedData : Prop :=
  ∀ s t : State, s.InRange → s.dlen + 3 ≤ s.cfg.dmax → exec .append s = .next t →
    ∃ u, exec .locate t = .next u ∧ (∀ j < s.dlen, readData u j = readData s j) ∧
      (u.dlen = s.dlen ↔ noMarker (readData s) s.dlen) ∧
      (noMarker (readData s) s.dlen → u.found = true ∧ u.locIdx = s.dlen + 2)

/-! ## FITS -/

/-- R96: FITS reports `DLEN * 8 <= WIDTH * HEIGHT` in its flag and changes nothing else. -/
def Obligations.FitsComparesLengthWithGrid : Prop :=
  ∀ s : State,
    encode .fits = 0x00000004 ∧
    exec .fits s = .next { s with fits := decide (s.dlen * 8 ≤ s.width * s.height), err := .none, busy := false,
                                  done := true }

/-! ## EMBED -/

/-- R105, with the end state of R104: EMBED replaces bit 0 of blue in the first `8 * DLEN` pixels by the bits of DATA,
most significant first, and leaves every other pixel and field as it was. -/
def Obligations.EmbedWritesOneBitPerPixel : Prop :=
  ∀ s : State, s.InRange → s.dlen * 8 ≤ s.width * s.height →
    ∃ t, exec .embed s = .next t ∧
      (∀ p < 8 * s.dlen, (readPix t p).r = (readPix s p).r ∧ (readPix t p).g = (readPix s p).g ∧
        (readPix t p).b = ((readPix s p).b &&& 0xFE#8) ||| payloadBit (readData s) p) ∧
      (∀ p, 8 * s.dlen ≤ p → readPix t p = readPix s p) ∧ sameData s t ∧ sameKey s t ∧
      t = { s with pix := t.pix, byteIdx := s.dlen, bitPos := 7, pixIdx := s.width * s.height, err := .none,
                   busy := false, done := true }

/-- R104: the cursor before pixel `p` of the pass is visited. -/
def Obligations.EmbedCursorFollowsThePayloadBits : Prop :=
  ∀ (s : State) (p : Nat), p ≤ s.width * s.height →
    let t := forUpTo p embedPixel (embedStart s)
    (p ≤ 8 * s.dlen → t.byteIdx = p / 8 ∧ t.bitPos.toNat = 7 - p % 8) ∧
    (8 * s.dlen ≤ p → t.byteIdx = s.dlen ∧ t.bitPos = 7) ∧ t.pixIdx = p

/-- R102: EMBED of a sequence that does not fit ends in E_CAPACITY, with the pixels, the cursor and the flag FITS as
they were. -/
def Obligations.EmbedRefusesWhatDoesNotFit : Prop :=
  ∀ s : State, s.width * s.height < s.dlen * 8 →
    exec .embed s = .next { s with err := .capacity, busy := false, done := true }

/-- R109: EMBED twice with the same DATA and DLEN gives the same grid as once, and the grid it gives does not depend
on the old value of bit 0 of an embedded pixel. -/
def Obligations.EmbedIsIdempotent : Prop :=
  ∀ s t : State, s.InRange → s.dlen * 8 ≤ s.width * s.height → exec .embed s = .next t →
    (∃ u, exec .embed t = .next u ∧ samePix t u ∧ u.byteIdx = t.byteIdx ∧ u.bitPos = t.bitPos ∧
      u.pixIdx = t.pixIdx) ∧
    (∀ s' : State, s'.InRange → s'.width = s.width → s'.height = s.height → s'.dlen = s.dlen → sameData s s' →
      (∀ p < 8 * s.dlen, (readPix s' p).r = (readPix s p).r ∧ (readPix s' p).g = (readPix s p).g ∧
        (readPix s' p).b &&& 0xFE#8 = (readPix s p).b &&& 0xFE#8) →
      ∃ t', exec .embed s' = .next t' ∧ ∀ p < 8 * s.dlen, readPix t' p = readPix t p)

/-! ## EXTRACT -/

/-- R115, with the end state of R116: EXTRACT stores the `floor(N/8)` bytes that the blue bits 0 spell, leaves the partial byte in ACC, and
changes nothing else but DLEN and the cursor. -/
def Obligations.ExtractPacksTheBlueBits : Prop :=
  ∀ s : State, s.InRange →
    ∃ t, exec .extract s = .next t ∧
      (∀ k < s.width * s.height / 8, readData t k = packedByte (fun j => (readPix s (8 * k + j)).b) 8) ∧
      (∀ k, s.width * s.height / 8 ≤ k → readData t k = readData s k) ∧ sameKey s t ∧ samePix s t ∧
      t = { s with
            data := t.data, dlen := s.width * s.height / 8, byteIdx := s.width * s.height / 8,
            bitPos := BitVec.ofNat 3 (7 - s.width * s.height % 8), pixIdx := s.width * s.height,
            acc := packedByte (fun j => (readPix s (8 * (s.width * s.height / 8) + j)).b)
              (s.width * s.height % 8),
            err := .none, busy := false, done := true }

/-- R119: EXTRACT after EMBED returns the embedded sequence, whatever happened to DATA in between. -/
def Obligations.ExtractAfterEmbedReturnsTheSequence : Prop :=
  ∀ s t v : State, s.InRange → s.dlen * 8 ≤ s.width * s.height → exec .embed s = .next t →
    v.InRange → v.width = t.width → v.height = t.height → samePix t v →
    ∃ u, exec .extract v = .next u ∧ (∀ k < s.dlen, readData u k = readData s k) ∧
      u.dlen = s.width * s.height / 8 ∧ s.dlen ≤ u.dlen

/-! ## HIDE -/

/-- R124: the end state of HIDE without error. -/
def Obligations.HideEmbedsTheEncryptedFrame : Prop :=
  ∀ s : State, s.InRange → 1 ≤ s.klen → (s.dlen + 3) * 8 ≤ s.width * s.height →
    ∃ t, exec .hide s = .next t ∧
      (∀ j < s.dlen, readData t j = readData s j ^^^ readKey s (j % s.klen)) ∧
      readData t s.dlen = 0x00 ∧ readData t (s.dlen + 1) = 0x00 ∧ readData t (s.dlen + 2) = 0x03 ∧
      (∀ j, s.dlen + 3 ≤ j → readData t j = readData s j) ∧
      (∀ p < 8 * (s.dlen + 3), (readPix t p).r = (readPix s p).r ∧ (readPix t p).g = (readPix s p).g ∧
        (readPix t p).b = ((readPix s p).b &&& 0xFE#8) ||| payloadBit (readData t) p) ∧
      (∀ p, 8 * (s.dlen + 3) ≤ p → readPix t p = readPix s p) ∧ sameKey s t ∧
      t = { s with
            data := t.data, pix := t.pix, dlen := s.dlen + 3, byteIdx := s.dlen + 3, bitPos := 7,
            pixIdx := s.width * s.height, err := .none, busy := false, done := true }

/-- R122, R142: HIDE checks the key first and then the capacity of the framed length; an abort leaves the Message,
the grid and every other field as they were. -/
def Obligations.HideAbortsBeforeItWrites : Prop :=
  ∀ s : State,
    (s.klen = 0 → exec .hide s = .next { s with err := .key, busy := false, done := true }) ∧
    (1 ≤ s.klen → s.width * s.height < (s.dlen + 3) * 8 →
      exec .hide s = .next { s with err := .capacity, busy := false, done := true })

/-- R125: HIDE without error has exactly the effect of XOR, APPEND, EMBED in that order. -/
def Obligations.HideIsXorAppendEmbed : Prop :=
  ∀ s : State, s.InRange → 1 ≤ s.klen → (s.dlen + 3) * 8 ≤ s.width * s.height →
    ∃ a b t, exec .xor s = .next a ∧ exec .append a = .next b ∧ exec .embed b = .next t ∧ exec .hide s = .next t

/-! ## SHOW -/

/-- R129: the end state of SHOW without error, with and without a terminator in the extracted stream. -/
def Obligations.ShowRecoversUpToTheFirstMarker : Prop :=
  ∀ s : State, s.InRange → 1 ≤ s.klen →
    ∃ t, exec .showMsg s = .next t ∧
      (∀ i, firstMarker (streamByte s) (s.width * s.height / 8) i →
        t.found = true ∧ t.locIdx = i ∧ t.dlen = i - 2 ∧
        (∀ j < i - 2, readData t j = streamByte s j ^^^ readKey s (j % s.klen)) ∧
        (∀ j, i - 2 ≤ j → j < s.width * s.height / 8 → readData t j = streamByte s j)) ∧
      (noMarker (streamByte s) (s.width * s.height / 8) →
        t.found = false ∧ t.locIdx = 0 ∧ t.dlen = 0 ∧
        (∀ j < s.width * s.height / 8, readData t j = streamByte s j)) ∧
      (∀ j, s.width * s.height / 8 ≤ j → readData t j = readData s j) ∧ sameKey s t ∧ samePix s t ∧
      t = { s with
            data := t.data, found := t.found, locIdx := t.locIdx, dlen := t.dlen,
            byteIdx := s.width * s.height / 8, bitPos := BitVec.ofNat 3 (7 - s.width * s.height % 8),
            pixIdx := s.width * s.height,
            acc := packedByte (fun j => (readPix s (8 * (s.width * s.height / 8) + j)).b)
              (s.width * s.height % 8),
            err := .none, busy := false, done := true }

/-- R130: SHOW without error has exactly the effect of EXTRACT, LOCATE, XOR in that order. -/
def Obligations.ShowIsExtractLocateXor : Prop :=
  ∀ s : State, s.InRange → 1 ≤ s.klen →
    ∃ a b t, exec .extract s = .next a ∧ exec .locate a = .next b ∧ exec .xor b = .next t ∧
      exec .showMsg s = .next t

/-- R133, R178: what SHOW finds does not depend on the key's bytes, on red or green, on bits 7:1 of blue or on what
DATA held: two states whose pixels agree in bit 0 of blue give the same FOUND, LOCIDX, DLEN, cursor and ACC. -/
def Obligations.ShowDecisionsDependOnBlueBitsOnly : Prop :=
  ∀ s s' : State, s.InRange → s'.InRange → 1 ≤ s.klen → 1 ≤ s'.klen →
    s'.width * s'.height = s.width * s.height →
    (∀ p < s.width * s.height, (readPix s' p).b.getLsbD 0 = (readPix s p).b.getLsbD 0) →
    ∃ t t', exec .showMsg s = .next t ∧ exec .showMsg s' = .next t' ∧ t'.found = t.found ∧
      t'.locIdx = t.locIdx ∧ t'.dlen = t.dlen ∧ t'.byteIdx = t.byteIdx ∧ t'.bitPos = t.bitPos ∧
      t'.pixIdx = t.pixIdx ∧ t'.acc = t.acc

/-- R131: HIDE then SHOW recovers the Message when the ciphertext does not contain `00 00 03`, and otherwise the part
before the first place where it does; FOUND is 1 in both cases. -/
def Obligations.HideThenShowRoundTrip : Prop :=
  ∀ s t v : State, s.InRange → 1 ≤ s.klen → (s.dlen + 3) * 8 ≤ s.width * s.height → exec .hide s = .next t →
    v.InRange → v.width = t.width → v.height = t.height → v.klen = t.klen → samePix t v → sameKey t v →
    ∃ u, exec .showMsg v = .next u ∧ u.found = true ∧
      (noMarker (fun k => readData s k ^^^ readKey s (k % s.klen)) s.dlen →
        u.dlen = s.dlen ∧ u.locIdx = s.dlen + 2 ∧ ∀ k < s.dlen, readData u k = readData s k) ∧
      (∀ j, firstMarker (fun k => readData s k ^^^ readKey s (k % s.klen)) s.dlen j →
        u.dlen = j - 2 ∧ u.locIdx = j ∧ ∀ k < j - 2, readData u k = readData s k)

/-! ## Errors -/

/-- R144: a command that ends in an error changes ERR, BUSY and DONE and nothing else; from the CMD write of any word,
legal or not, to an abort, only ERR, DONE and LASTCMD change. -/
def Obligations.AbortChangesOnlyTheStatus : Prop :=
  (∀ (i : Instr) (s t : State), exec i s = .next t → t.err ≠ .none →
    t = { s with err := t.err, busy := false, done := true }) ∧
  ∀ (s u t : State) (w : Word) (rest : List Event), s.busy = false →
    s.schedule = .access (.write .reg 0 w) :: .sequencer :: rest → step s = .next u → step u = .next t →
    t.err ≠ .none → t = { s with schedule := rest, err := t.err, done := true, lastCmd := w }

/-- R135: which command ends in which error, and exactly when; no command of the eight ends in E_ILLEGAL. -/
def Obligations.ErrorsAreRaisedExactlyAsListed : Prop :=
  ∀ (i : Instr) (s t : State), exec i s = .next t →
    (t.err = .key ↔ (isCipher i ∨ i = .hide ∨ i = .showMsg) ∧ s.klen = 0) ∧
    (t.err = .capacity ↔ (i = .embed ∧ s.width * s.height < s.dlen * 8) ∨
      (i = .hide ∧ s.klen ≠ 0 ∧ s.width * s.height < (s.dlen + 3) * 8)) ∧
    (t.err = .overflow ↔ i = .append ∧ s.cfg.dmax < s.dlen + 3) ∧ t.err ≠ .illegal

/-- R149: the error an accepted word ends in is a function of that word and of KLEN, DLEN, WIDTH and HEIGHT, on
blocks of the same sizes. -/
def Obligations.ErrorDependsOnTheLengthsOnly : Prop :=
  ∀ s s' t t' : State, s.busy = true → s'.busy = true → s.schedule = [] → s'.schedule = [] →
    s'.cfg = s.cfg → s'.lastCmd = s.lastCmd → s'.klen = s.klen → s'.dlen = s.dlen → s'.width = s.width →
    s'.height = s.height → step s = .next t → step s' = .next t' → t'.err = t.err

/-- R145: the next accepted CMD write clears ERR and DONE, no other host access changes them, and no command's effect
depends on what they were. -/
def Obligations.AnErrorNeverAltersALaterCommand : Prop :=
  ∀ (i : Instr) (w : Word) (s : State) (e : Err) (d : Bool),
    (s.busy = false → (hostWrite .reg 0 w s).err = .none ∧ (hostWrite .reg 0 w s).done = false) ∧
    (∀ a : Access, (∀ v, a ≠ .write .reg 0 v) → (hostAccess a s).err = s.err ∧ (hostAccess a s).done = s.done) ∧
    exec i { s with err := e, done := d } = exec i s

/-! ## What no command writes -/

/-- R14, R29: no command writes KLEN, WIDTH, HEIGHT or KEY, nor (R26) LASTCMD. That the port's output `hRData` stays is
the model's choice (log 7), and so are the model's own fields `cfg` (log 3), `schedule` (log 2), `epoch` and `draws`
(log 11), which stay as well. -/
def Obligations.CommandsNeverWriteTheHostsOperands : Prop :=
  ∀ (i : Instr) (s t : State), exec i s = .next t →
    t.key = s.key ∧ t.klen = s.klen ∧ t.width = s.width ∧ t.height = s.height ∧ t.lastCmd = s.lastCmd ∧
    t.hRData = s.hRData ∧ t.cfg = s.cfg ∧ t.schedule = s.schedule ∧ t.epoch = s.epoch ∧ t.draws = s.draws

/-- R42, R108: no command changes red, green or bits 7 to 1 of blue of any pixel. -/
def Obligations.OnlyBlueBitZeroEverChanges : Prop :=
  ∀ (i : Instr) (s t : State) (p : Nat), exec i s = .next t →
    (readPix t p).r = (readPix s p).r ∧ (readPix t p).g = (readPix s p).g ∧
      (readPix t p).b &&& 0xFE#8 = (readPix s p).b &&& 0xFE#8

/-- R33: the blank cells of the table of who writes what. -/
def Obligations.CommandsWriteOnlyTheirOwnState : Prop :=
  ∀ (i : Instr) (s t : State), exec i s = .next t →
    (i ≠ .locate → i ≠ .showMsg → t.found = s.found ∧ t.locIdx = s.locIdx) ∧
    (i ≠ .fits → t.fits = s.fits) ∧
    (i ≠ .extract → i ≠ .showMsg → t.acc = s.acc) ∧
    (i ≠ .embed → i ≠ .extract → i ≠ .hide → i ≠ .showMsg →
      t.byteIdx = s.byteIdx ∧ t.bitPos = s.bitPos ∧ t.pixIdx = s.pixIdx) ∧
    (isCipher i ∨ i = .fits ∨ i = .embed → t.dlen = s.dlen) ∧
    (i = .locate ∨ i = .fits ∨ i = .embed → sameData s t) ∧
    (i ≠ .embed → i ≠ .hide → samePix s t) ∧ sameKey s t

/-- R41: a command depends on WIDTH and HEIGHT only through their product. -/
def Obligations.CommandsDependOnTheGridsProductOnly : Prop :=
  ∀ (i : Instr) (s t : State) (w h : Nat), w * h = s.width * s.height → exec i s = .next t →
    exec i { s with width := w, height := h } = .next { t with width := w, height := h }

/-! ## Legal states -/

/-- R43: from a legal state no command forms an index outside its buffer: every command answers a next state, and the
operand registers stay in range. -/
def Obligations.NoCommandLeavesItsBuffers : Prop :=
  ∀ (i : Instr) (s : State), s.InRange → ∃ t, exec i s = .next t ∧ t.InRange ∧ t.busy = false ∧ t.done = true

/-- The model's choice of log 10: in a state that no run reaches, a command whose error checks pass faults exactly
when it would index a buffer outside its capacity; APPEND and FITS never do, and no command is refused. -/
def Obligations.CommandsFaultExactlyOutsideTheBuffers : Prop :=
  ∀ (i : Instr) (s : State),
    (exec i s = .fault .elementOutsideBuffer ↔
      (isCipher i ∧ s.klen ≠ 0 ∧ (s.cfg.kmax < s.klen ∨ s.cfg.dmax < s.dlen)) ∨
      (i = .locate ∧ s.cfg.dmax < s.dlen) ∨
      (i = .embed ∧ s.dlen * 8 ≤ s.width * s.height ∧
        (s.cfg.dmax < s.dlen ∨ s.cfg.pmax < s.width * s.height)) ∨
      (i = .extract ∧ (s.cfg.dmax < s.width * s.height / 8 ∨ s.cfg.pmax < s.width * s.height)) ∨
      (i = .hide ∧ s.klen ≠ 0 ∧ (s.dlen + 3) * 8 ≤ s.width * s.height ∧
        (s.cfg.kmax < s.klen ∨ s.cfg.dmax < s.dlen + 3 ∨ s.cfg.pmax < s.width * s.height)) ∨
      (i = .showMsg ∧ s.klen ≠ 0 ∧
        (s.cfg.kmax < s.klen ∨ s.cfg.dmax < s.width * s.height / 8 ∨ s.cfg.pmax < s.width * s.height))) ∧
    ∀ r, exec i s ≠ .refused r

/-- R13, R15, R25: the ranges, the form of the memories and the handshake are kept by every step. -/
def Obligations.EveryStepKeepsTheInvariant : Prop :=
  ∀ s t : State, s.Inv → step s = .next t → t.Inv

/-- R160: "every command is defined on every reachable state": from a state that meets the invariant no step faults or
refuses. -/
def Obligations.NoStepStopsInALegalState : Prop :=
  ∀ s : State, s.Inv → ∃ t, step s = .next t

/-- R23, R60, R90, R143: the agreement of the result fields is kept by every step. -/
def Obligations.EveryStepKeepsTheResultsCoherent : Prop :=
  ∀ s t : State, s.Coherent → step s = .next t → t.Coherent

/-- R34: the state after reset meets the invariant, for all legal parameters. -/
def Obligations.ResetMeetsTheInvariant : Prop :=
  ∀ p : Config.Params, p.legal → (State.resetFor p).Inv ∧ (State.resetFor p).Coherent

/-- R160, R161: whatever the host does from reset on, and whenever resets come, every run goes on and stays legal. -/
def Obligations.EveryRunFromResetStaysLegal : Prop :=
  ∀ (p : Config.Params) (events : List Event) (n : Nat), p.legal →
    ∃ t, Sys2Proof.core.run n { State.resetFor p with schedule := events } = .next t ∧ t.Inv ∧ t.Coherent

/-! ## The host port -/

/-- R54: while BUSY = 1 a host write to any region is ignored. -/
def Obligations.HostWritesAreIgnoredWhileBusy : Prop :=
  ∀ (s : State) (sel : Region) (idx v : Word), s.busy = true → hostWrite sel idx v s = s

/-- R54, U2: STATUS can be read at any time; while BUSY = 1 any other read returns a free value and touches nothing of
the block (that it is the model's `draws`-th free value is log 6). -/
def Obligations.OnlyStatusIsReadableWhileBusy : Prop :=
  ∀ (s : State) (sel : Region) (idx : Word),
    hostRead .reg 1 s = { s with hRData := statusWord s } ∧
    (s.busy = true → ¬ (sel = .reg ∧ idx = 1) →
      hostRead sel idx s = { s with hRData := Config.busyRead s.draws, draws := s.draws + 1 })

/-- R50: a read changes nothing but the port's output, and a repeated read returns the same word. -/
def Obligations.HostReadsHaveNoSideEffects : Prop :=
  ∀ (s : State) (sel : Region) (idx : Word), s.busy = false →
    hostRead sel idx s = { s with hRData := (hostRead sel idx s).hRData } ∧
    (hostRead sel idx (hostRead sel idx s)).hRData = (hostRead sel idx s).hRData

/-- R15: an idle host write of an operand register takes a value in range and drops any other, and the grid never
exceeds PMAX. -/
def Obligations.OperandRegisterWritesAreRangeChecked : Prop :=
  ∀ (s : State) (v : Word), s.busy = false →
    hostWrite .reg 2 v s = (if v.toNat ≤ s.cfg.kmax then { s with klen := v.toNat } else s) ∧
    hostWrite .reg 3 v s = (if v.toNat ≤ s.cfg.dmax then { s with dlen := v.toNat } else s) ∧
    hostWrite .reg 4 v s = (if v.toNat ≤ s.cfg.wmax then { s with width := v.toNat } else s) ∧
    hostWrite .reg 5 v s = (if v.toNat ≤ s.cfg.hmax then { s with height := v.toNat } else s) ∧
    (s.InRange → s.width * s.height ≤ s.cfg.pmax)

/-- R28: reserved indices read 0 and ignore writes; the read-only registers ignore writes. -/
def Obligations.ReservedAndReadOnlyRegistersIgnoreWrites : Prop :=
  ∀ (s : State) (idx v : Word),
    (idx = 1 ∨ 6 ≤ idx.toNat → hostWrite .reg idx v s = s) ∧
    (12 ≤ idx.toNat → s.busy = false → hostRead .reg idx s = { s with hRData := 0 })

/-- R27: what the idle host reads at each register index, zero-extended. -/
def Obligations.RegisterMapReads : Prop :=
  ∀ s : State, s.busy = false → s.klen < 2 ^ 32 → s.dlen < 2 ^ 32 → s.width < 2 ^ 32 → s.height < 2 ^ 32 →
    s.locIdx < 2 ^ 32 → s.byteIdx < 2 ^ 32 → s.pixIdx < 2 ^ 32 →
    (hostRead .reg 0 s).hRData = 0 ∧ (hostRead .reg 1 s).hRData = statusWord s ∧
    (hostRead .reg 2 s).hRData.toNat = s.klen ∧ (hostRead .reg 3 s).hRData.toNat = s.dlen ∧
    (hostRead .reg 4 s).hRData.toNat = s.width ∧ (hostRead .reg 5 s).hRData.toNat = s.height ∧
    (hostRead .reg 6 s).hRData.toNat = s.locIdx ∧ (hostRead .reg 7 s).hRData.toNat = s.byteIdx ∧
    (hostRead .reg 8 s).hRData.toNat = s.bitPos.toNat ∧ (hostRead .reg 9 s).hRData.toNat = s.acc.toNat ∧
    (hostRead .reg 10 s).hRData.toNat = s.pixIdx ∧ (hostRead .reg 11 s).hRData = s.lastCmd

/-- R25: the layout of STATUS. -/
def Obligations.StatusPacksTheFlags : Prop :=
  ∀ s : State,
    (statusWord s).getLsbD 0 = s.busy ∧ (statusWord s).getLsbD 1 = s.done ∧ (statusWord s).getLsbD 2 = s.found ∧
    (statusWord s).getLsbD 3 = s.fits ∧ (statusWord s).extractLsb' 4 3 = errCode s.err ∧
    (statusWord s).extractLsb' 7 25 = 0 ∧
    errCode .none = 0 ∧ errCode .key = 1 ∧ errCode .capacity = 2 ∧ errCode .illegal = 3 ∧ errCode .overflow = 4

/-- R46: an idle host write of a buffer element inside its region is what a read of it returns, every other element
reads as before, and the unused upper bits of the word are ignored and read 0. -/
def Obligations.BufferWritesReadBack : Prop :=
  ∀ (s : State) (idx v : Word), s.busy = false →
    (idx.toNat < s.cfg.kmax →
      (hostRead .key idx (hostWrite .key idx v s)).hRData = v &&& 0x000000FF ∧
      (∀ j ≠ idx.toNat, readKey (hostWrite .key idx v s) j = readKey s j) ∧
      hostWrite .key idx v s = { s with key := (hostWrite .key idx v s).key }) ∧
    (idx.toNat < s.cfg.dmax →
      (hostRead .data idx (hostWrite .data idx v s)).hRData = v &&& 0x000000FF ∧
      (∀ j ≠ idx.toNat, readData (hostWrite .data idx v s) j = readData s j) ∧
      hostWrite .data idx v s = { s with data := (hostWrite .data idx v s).data }) ∧
    (idx.toNat < s.cfg.pmax →
      (hostRead .pix idx (hostWrite .pix idx v s)).hRData = v &&& 0x00FFFFFF ∧
      (∀ j ≠ idx.toNat, readPix (hostWrite .pix idx v s) j = readPix s j) ∧
      hostWrite .pix idx v s = { s with pix := (hostWrite .pix idx v s).pix })

/-- R48: an idle host access beyond its region: a write is ignored, a read returns 0, no error is recorded. -/
def Obligations.AccessesBeyondARegionAreHarmless : Prop :=
  ∀ (s : State) (sel : Region) (idx v : Word), s.busy = false →
    ((sel = .key ∧ s.cfg.kmax ≤ idx.toNat) ∨ (sel = .data ∧ s.cfg.dmax ≤ idx.toNat) ∨
      (sel = .pix ∧ s.cfg.pmax ≤ idx.toNat) ∨ (sel = .reg ∧ 12 ≤ idx.toNat)) →
    hostWrite sel idx v s = s ∧ hostRead sel idx s = { s with hRData := 0 }

/-- R42, R46: the places of the three channels in a pixel word. -/
def Obligations.PixelWordLayout : Prop :=
  ∀ (w : Word) (px : Pixel),
    wordOfPixel (pixelOfWord w) = w &&& 0x00FFFFFF ∧ pixelOfWord (wordOfPixel px) = px ∧
    (wordOfPixel px).extractLsb' 16 8 = px.r ∧ (wordOfPixel px).extractLsb' 8 8 = px.g ∧
    (wordOfPixel px).extractLsb' 0 8 = px.b ∧ (wordOfPixel px).extractLsb' 24 8 = 0

/-- R106: both branches of the source's blue update are `(B & 0xFE) | bit`; bits 7 to 1 are kept and bit 0 is the bit
written. -/
def Obligations.BlueUpdateReplacesBitZero : Prop :=
  ∀ (b bit : Byte), (bit = 0 ∨ bit = 1) →
    (b.getLsbD 0 = false → setLsb b bit = b ||| bit) ∧
    (b.getLsbD 0 = true → setLsb b bit = (b &&& 0xFE#8) ||| bit) ∧
    setLsb b bit >>> 1 = b >>> 1 ∧ setLsb b bit &&& 1#8 = bit

end
end

