-- ==== Sys2Proof/Laws/Memory.lean ====
section
/-! SUPPORT. The laws of a memory: read after write, the canonical form and the capacity kept by a write (R32, R37). -/

namespace Sys2Proof.Machine

variable {α : Type}

theorem memRead_memWrite_same (m : Memory α) (i : Nat) (v : α) : memRead (memWrite m i v) i = some v := by
  induction m with
  | nil => simp [memWrite, memRead]
  | cons x m ih =>
    obtain ⟨j, w⟩ := x
    unfold memWrite
    split
    · simp [memRead]
    · split
      · simp [memRead]
      · next h => simpa [memRead, Ne.symm h] using ih

theorem memRead_memWrite_other (m : Memory α) {i j : Nat} (v : α) (h : j ≠ i) :
    memRead (memWrite m i v) j = memRead m j := by
  induction m with
  | nil => simp [memWrite, memRead, Ne.symm h]
  | cons x m ih =>
    obtain ⟨k, w⟩ := x
    unfold memWrite
    split
    · simp [memRead, Ne.symm h]
    · split
      · next hk => subst hk; simp [memRead, Ne.symm h]
      · simp [memRead, ih]

/-- Read after write, at every index. -/
theorem memRead_memWrite (m : Memory α) (i j : Nat) (v : α) :
    memRead (memWrite m i v) j = if j = i then some v else memRead m j := by
  split
  · next h => subst h; exact memRead_memWrite_same m _ v
  · next h => exact memRead_memWrite_other m v h

/-- Read after write, at every index, free values included. -/
@[simp] theorem elementAt_memWrite (free : Nat → α) (m : Memory α) (i j : Nat) (v : α) :
    elementAt free (memWrite m i v) j = if j = i then v else elementAt free m j := by
  simp only [elementAt, memRead_memWrite]; split <;> rfl

/-- The entries after a write are the new one and old ones. -/
theorem mem_memWrite {m : Memory α} {i : Nat} {v : α} {x : Nat × α} (h : x ∈ memWrite m i v) :
    x = (i, v) ∨ x ∈ m := by
  induction m with
  | nil => simpa [memWrite] using h
  | cons y m ih =>
    obtain ⟨j, w⟩ := y
    unfold memWrite at h
    split at h
    · simpa using h
    · split at h
      · rcases List.mem_cons.1 h with h | h
        · exact .inl h
        · exact .inr (List.mem_cons_of_mem _ h)
      · rcases List.mem_cons.1 h with h | h
        · exact .inr (h ▸ List.mem_cons_self)
        · exact (ih h).imp_right (List.mem_cons_of_mem _)

/-- A write keeps the canonical form. -/
theorem memWrite_wf {m : Memory α} (i : Nat) (v : α) (h : Memory.wf m) : Memory.wf (memWrite m i v) := by
  induction m with
  | nil => simp [memWrite, Memory.wf]
  | cons y m ih =>
    obtain ⟨j, w⟩ := y
    have hm := List.pairwise_cons.1 h
    unfold memWrite
    split
    · next hij =>
      refine List.pairwise_cons.2 ⟨fun x hx => ?_, h⟩
      rcases List.mem_cons.1 hx with rfl | hx
      · exact hij
      · exact lt_trans hij (hm.1 x hx)
    · split
      · next hij => subst hij; exact List.pairwise_cons.2 ⟨hm.1, hm.2⟩
      · refine List.pairwise_cons.2 ⟨fun x hx => ?_, ih hm.2⟩
        rcases mem_memWrite hx with rfl | hx
        · dsimp only; omega
        · exact hm.1 x hx

/-- A write inside the buffer lists only elements of the buffer. -/
theorem memWrite_within {m : Memory α} {i cap : Nat} (v : α) (h : Memory.within m cap) (hi : i < cap) :
    Memory.within (memWrite m i v) cap := fun x hx => by
  rcases mem_memWrite hx with rfl | hx
  · exact hi
  · exact h x hx

/-- The canonical form and the capacity together. -/
theorem memWrite_ok {m : Memory α} {i cap : Nat} (v : α) (h : Memory.wf m ∧ Memory.within m cap) (hi : i < cap) :
    Memory.wf (memWrite m i v) ∧ Memory.within (memWrite m i v) cap :=
  ⟨memWrite_wf i v h.1, memWrite_within v h.2 hi⟩

/-- Two canonical memories that read alike at every index are the same list: equal memories are equal data. -/
theorem memory_ext {m n : Memory α} (hm : Memory.wf m) (hn : Memory.wf n) (h : ∀ i, memRead m i = memRead n i) :
    m = n := by
  have key : ∀ {m : Memory α} {j : Nat}, (∀ x ∈ m, j < x.1) → memRead m j = none := by
    intro m j hj
    induction m with
    | nil => rfl
    | cons x m ih =>
      have := hj x List.mem_cons_self
      simp [memRead, Nat.ne_of_gt this, ih fun y hy => hj y (List.mem_cons_of_mem _ hy)]
  induction m generalizing n with
  | nil =>
    cases n with
    | nil => rfl
    | cons y n => simpa [memRead] using h y.1
  | cons x m ih =>
    cases n with
    | nil => simpa [memRead] using h x.1
    | cons y n =>
      obtain ⟨i, v⟩ := x
      obtain ⟨j, w⟩ := y
      have hm' := List.pairwise_cons.1 hm
      have hn' := List.pairwise_cons.1 hn
      have hij : i = j := by
        rcases lt_trichotomy i j with hlt | heq | hgt
        · have := h i
          simp only [memRead, if_pos, Nat.ne_of_gt hlt, if_false] at this
          rw [key fun z hz => lt_trans hlt (hn'.1 z hz)] at this
          simp at this
        · exact heq
        · have := h j
          simp only [memRead, if_pos, Nat.ne_of_gt hgt, if_false] at this
          rw [key fun z hz => lt_trans hgt (hm'.1 z hz)] at this
          simp at this
      subst hij
      have hv : v = w := by simpa [memRead] using h i
      subst hv
      rw [ih hm'.2 hn'.2]
      intro k
      by_cases hk : i = k
      · subst hk
        rw [key fun z hz => hm'.1 z hz, key fun z hz => hn'.1 z hz]
      · simpa [memRead, hk] using h k

end Sys2Proof.Machine
end

