-- ==== Sys2Proof/Laws/State.lean ====
section
/-! SUPPORT. One lemma per field per update of the state, each true by rfl: later proofs unfold no record update. -/

namespace Sys2Proof.Machine

variable (s : State)

@[simp] theorem writeKey_cfg (i : Nat) (v : Byte) : (writeKey s i v).cfg = s.cfg := rfl
@[simp] theorem writeKey_key (i : Nat) (v : Byte) : (writeKey s i v).key = memWrite s.key i v := rfl
@[simp] theorem writeKey_data (i : Nat) (v : Byte) : (writeKey s i v).data = s.data := rfl
@[simp] theorem writeKey_pix (i : Nat) (v : Byte) : (writeKey s i v).pix = s.pix := rfl
@[simp] theorem writeKey_klen (i : Nat) (v : Byte) : (writeKey s i v).klen = s.klen := rfl
@[simp] theorem writeKey_dlen (i : Nat) (v : Byte) : (writeKey s i v).dlen = s.dlen := rfl
@[simp] theorem writeKey_width (i : Nat) (v : Byte) : (writeKey s i v).width = s.width := rfl
@[simp] theorem writeKey_height (i : Nat) (v : Byte) : (writeKey s i v).height = s.height := rfl
@[simp] theorem writeKey_byteIdx (i : Nat) (v : Byte) : (writeKey s i v).byteIdx = s.byteIdx := rfl
@[simp] theorem writeKey_bitPos (i : Nat) (v : Byte) : (writeKey s i v).bitPos = s.bitPos := rfl
@[simp] theorem writeKey_acc (i : Nat) (v : Byte) : (writeKey s i v).acc = s.acc := rfl
@[simp] theorem writeKey_pixIdx (i : Nat) (v : Byte) : (writeKey s i v).pixIdx = s.pixIdx := rfl
@[simp] theorem writeKey_locIdx (i : Nat) (v : Byte) : (writeKey s i v).locIdx = s.locIdx := rfl
@[simp] theorem writeKey_found (i : Nat) (v : Byte) : (writeKey s i v).found = s.found := rfl
@[simp] theorem writeKey_fits (i : Nat) (v : Byte) : (writeKey s i v).fits = s.fits := rfl
@[simp] theorem writeKey_err (i : Nat) (v : Byte) : (writeKey s i v).err = s.err := rfl
@[simp] theorem writeKey_busy (i : Nat) (v : Byte) : (writeKey s i v).busy = s.busy := rfl
@[simp] theorem writeKey_done (i : Nat) (v : Byte) : (writeKey s i v).done = s.done := rfl
@[simp] theorem writeKey_lastCmd (i : Nat) (v : Byte) : (writeKey s i v).lastCmd = s.lastCmd := rfl
@[simp] theorem writeKey_hRData (i : Nat) (v : Byte) : (writeKey s i v).hRData = s.hRData := rfl
@[simp] theorem writeKey_schedule (i : Nat) (v : Byte) : (writeKey s i v).schedule = s.schedule := rfl
@[simp] theorem writeKey_epoch (i : Nat) (v : Byte) : (writeKey s i v).epoch = s.epoch := rfl
@[simp] theorem writeKey_draws (i : Nat) (v : Byte) : (writeKey s i v).draws = s.draws := rfl

@[simp] theorem writeData_cfg (i : Nat) (v : Byte) : (writeData s i v).cfg = s.cfg := rfl
@[simp] theorem writeData_key (i : Nat) (v : Byte) : (writeData s i v).key = s.key := rfl
@[simp] theorem writeData_data (i : Nat) (v : Byte) : (writeData s i v).data = memWrite s.data i v := rfl
@[simp] theorem writeData_pix (i : Nat) (v : Byte) : (writeData s i v).pix = s.pix := rfl
@[simp] theorem writeData_klen (i : Nat) (v : Byte) : (writeData s i v).klen = s.klen := rfl
@[simp] theorem writeData_dlen (i : Nat) (v : Byte) : (writeData s i v).dlen = s.dlen := rfl
@[simp] theorem writeData_width (i : Nat) (v : Byte) : (writeData s i v).width = s.width := rfl
@[simp] theorem writeData_height (i : Nat) (v : Byte) : (writeData s i v).height = s.height := rfl
@[simp] theorem writeData_byteIdx (i : Nat) (v : Byte) : (writeData s i v).byteIdx = s.byteIdx := rfl
@[simp] theorem writeData_bitPos (i : Nat) (v : Byte) : (writeData s i v).bitPos = s.bitPos := rfl
@[simp] theorem writeData_acc (i : Nat) (v : Byte) : (writeData s i v).acc = s.acc := rfl
@[simp] theorem writeData_pixIdx (i : Nat) (v : Byte) : (writeData s i v).pixIdx = s.pixIdx := rfl
@[simp] theorem writeData_locIdx (i : Nat) (v : Byte) : (writeData s i v).locIdx = s.locIdx := rfl
@[simp] theorem writeData_found (i : Nat) (v : Byte) : (writeData s i v).found = s.found := rfl
@[simp] theorem writeData_fits (i : Nat) (v : Byte) : (writeData s i v).fits = s.fits := rfl
@[simp] theorem writeData_err (i : Nat) (v : Byte) : (writeData s i v).err = s.err := rfl
@[simp] theorem writeData_busy (i : Nat) (v : Byte) : (writeData s i v).busy = s.busy := rfl
@[simp] theorem writeData_done (i : Nat) (v : Byte) : (writeData s i v).done = s.done := rfl
@[simp] theorem writeData_lastCmd (i : Nat) (v : Byte) : (writeData s i v).lastCmd = s.lastCmd := rfl
@[simp] theorem writeData_hRData (i : Nat) (v : Byte) : (writeData s i v).hRData = s.hRData := rfl
@[simp] theorem writeData_schedule (i : Nat) (v : Byte) : (writeData s i v).schedule = s.schedule := rfl
@[simp] theorem writeData_epoch (i : Nat) (v : Byte) : (writeData s i v).epoch = s.epoch := rfl
@[simp] theorem writeData_draws (i : Nat) (v : Byte) : (writeData s i v).draws = s.draws := rfl

@[simp] theorem writePix_cfg (p : Nat) (v : Pixel) : (writePix s p v).cfg = s.cfg := rfl
@[simp] theorem writePix_key (p : Nat) (v : Pixel) : (writePix s p v).key = s.key := rfl
@[simp] theorem writePix_data (p : Nat) (v : Pixel) : (writePix s p v).data = s.data := rfl
@[simp] theorem writePix_pix (p : Nat) (v : Pixel) : (writePix s p v).pix = memWrite s.pix p v := rfl
@[simp] theorem writePix_klen (p : Nat) (v : Pixel) : (writePix s p v).klen = s.klen := rfl
@[simp] theorem writePix_dlen (p : Nat) (v : Pixel) : (writePix s p v).dlen = s.dlen := rfl
@[simp] theorem writePix_width (p : Nat) (v : Pixel) : (writePix s p v).width = s.width := rfl
@[simp] theorem writePix_height (p : Nat) (v : Pixel) : (writePix s p v).height = s.height := rfl
@[simp] theorem writePix_byteIdx (p : Nat) (v : Pixel) : (writePix s p v).byteIdx = s.byteIdx := rfl
@[simp] theorem writePix_bitPos (p : Nat) (v : Pixel) : (writePix s p v).bitPos = s.bitPos := rfl
@[simp] theorem writePix_acc (p : Nat) (v : Pixel) : (writePix s p v).acc = s.acc := rfl
@[simp] theorem writePix_pixIdx (p : Nat) (v : Pixel) : (writePix s p v).pixIdx = s.pixIdx := rfl
@[simp] theorem writePix_locIdx (p : Nat) (v : Pixel) : (writePix s p v).locIdx = s.locIdx := rfl
@[simp] theorem writePix_found (p : Nat) (v : Pixel) : (writePix s p v).found = s.found := rfl
@[simp] theorem writePix_fits (p : Nat) (v : Pixel) : (writePix s p v).fits = s.fits := rfl
@[simp] theorem writePix_err (p : Nat) (v : Pixel) : (writePix s p v).err = s.err := rfl
@[simp] theorem writePix_busy (p : Nat) (v : Pixel) : (writePix s p v).busy = s.busy := rfl
@[simp] theorem writePix_done (p : Nat) (v : Pixel) : (writePix s p v).done = s.done := rfl
@[simp] theorem writePix_lastCmd (p : Nat) (v : Pixel) : (writePix s p v).lastCmd = s.lastCmd := rfl
@[simp] theorem writePix_hRData (p : Nat) (v : Pixel) : (writePix s p v).hRData = s.hRData := rfl
@[simp] theorem writePix_schedule (p : Nat) (v : Pixel) : (writePix s p v).schedule = s.schedule := rfl
@[simp] theorem writePix_epoch (p : Nat) (v : Pixel) : (writePix s p v).epoch = s.epoch := rfl
@[simp] theorem writePix_draws (p : Nat) (v : Pixel) : (writePix s p v).draws = s.draws := rfl

@[simp] theorem accept_cfg (w : Word) : (accept w s).cfg = s.cfg := rfl
@[simp] theorem accept_key (w : Word) : (accept w s).key = s.key := rfl
@[simp] theorem accept_data (w : Word) : (accept w s).data = s.data := rfl
@[simp] theorem accept_pix (w : Word) : (accept w s).pix = s.pix := rfl
@[simp] theorem accept_klen (w : Word) : (accept w s).klen = s.klen := rfl
@[simp] theorem accept_dlen (w : Word) : (accept w s).dlen = s.dlen := rfl
@[simp] theorem accept_width (w : Word) : (accept w s).width = s.width := rfl
@[simp] theorem accept_height (w : Word) : (accept w s).height = s.height := rfl
@[simp] theorem accept_byteIdx (w : Word) : (accept w s).byteIdx = s.byteIdx := rfl
@[simp] theorem accept_bitPos (w : Word) : (accept w s).bitPos = s.bitPos := rfl
@[simp] theorem accept_acc (w : Word) : (accept w s).acc = s.acc := rfl
@[simp] theorem accept_pixIdx (w : Word) : (accept w s).pixIdx = s.pixIdx := rfl
@[simp] theorem accept_locIdx (w : Word) : (accept w s).locIdx = s.locIdx := rfl
@[simp] theorem accept_found (w : Word) : (accept w s).found = s.found := rfl
@[simp] theorem accept_fits (w : Word) : (accept w s).fits = s.fits := rfl
@[simp] theorem accept_err (w : Word) : (accept w s).err = .none := rfl
@[simp] theorem accept_busy (w : Word) : (accept w s).busy = true := rfl
@[simp] theorem accept_done (w : Word) : (accept w s).done = false := rfl
@[simp] theorem accept_lastCmd (w : Word) : (accept w s).lastCmd = w := rfl
@[simp] theorem accept_hRData (w : Word) : (accept w s).hRData = s.hRData := rfl
@[simp] theorem accept_schedule (w : Word) : (accept w s).schedule = s.schedule := rfl
@[simp] theorem accept_epoch (w : Word) : (accept w s).epoch = s.epoch := rfl
@[simp] theorem accept_draws (w : Word) : (accept w s).draws = s.draws := rfl

@[simp] theorem complete_cfg : (complete s).cfg = s.cfg := rfl
@[simp] theorem complete_key : (complete s).key = s.key := rfl
@[simp] theorem complete_data : (complete s).data = s.data := rfl
@[simp] theorem complete_pix : (complete s).pix = s.pix := rfl
@[simp] theorem complete_klen : (complete s).klen = s.klen := rfl
@[simp] theorem complete_dlen : (complete s).dlen = s.dlen := rfl
@[simp] theorem complete_width : (complete s).width = s.width := rfl
@[simp] theorem complete_height : (complete s).height = s.height := rfl
@[simp] theorem complete_byteIdx : (complete s).byteIdx = s.byteIdx := rfl
@[simp] theorem complete_bitPos : (complete s).bitPos = s.bitPos := rfl
@[simp] theorem complete_acc : (complete s).acc = s.acc := rfl
@[simp] theorem complete_pixIdx : (complete s).pixIdx = s.pixIdx := rfl
@[simp] theorem complete_locIdx : (complete s).locIdx = s.locIdx := rfl
@[simp] theorem complete_found : (complete s).found = s.found := rfl
@[simp] theorem complete_fits : (complete s).fits = s.fits := rfl
@[simp] theorem complete_err : (complete s).err = .none := rfl
@[simp] theorem complete_busy : (complete s).busy = false := rfl
@[simp] theorem complete_done : (complete s).done = true := rfl
@[simp] theorem complete_lastCmd : (complete s).lastCmd = s.lastCmd := rfl
@[simp] theorem complete_hRData : (complete s).hRData = s.hRData := rfl
@[simp] theorem complete_schedule : (complete s).schedule = s.schedule := rfl
@[simp] theorem complete_epoch : (complete s).epoch = s.epoch := rfl
@[simp] theorem complete_draws : (complete s).draws = s.draws := rfl

@[simp] theorem raise_cfg (e : Err) : (raise e s).cfg = s.cfg := rfl
@[simp] theorem raise_key (e : Err) : (raise e s).key = s.key := rfl
@[simp] theorem raise_data (e : Err) : (raise e s).data = s.data := rfl
@[simp] theorem raise_pix (e : Err) : (raise e s).pix = s.pix := rfl
@[simp] theorem raise_klen (e : Err) : (raise e s).klen = s.klen := rfl
@[simp] theorem raise_dlen (e : Err) : (raise e s).dlen = s.dlen := rfl
@[simp] theorem raise_width (e : Err) : (raise e s).width = s.width := rfl
@[simp] theorem raise_height (e : Err) : (raise e s).height = s.height := rfl
@[simp] theorem raise_byteIdx (e : Err) : (raise e s).byteIdx = s.byteIdx := rfl
@[simp] theorem raise_bitPos (e : Err) : (raise e s).bitPos = s.bitPos := rfl
@[simp] theorem raise_acc (e : Err) : (raise e s).acc = s.acc := rfl
@[simp] theorem raise_pixIdx (e : Err) : (raise e s).pixIdx = s.pixIdx := rfl
@[simp] theorem raise_locIdx (e : Err) : (raise e s).locIdx = s.locIdx := rfl
@[simp] theorem raise_found (e : Err) : (raise e s).found = s.found := rfl
@[simp] theorem raise_fits (e : Err) : (raise e s).fits = s.fits := rfl
@[simp] theorem raise_err (e : Err) : (raise e s).err = e := rfl
@[simp] theorem raise_busy (e : Err) : (raise e s).busy = false := rfl
@[simp] theorem raise_done (e : Err) : (raise e s).done = true := rfl
@[simp] theorem raise_lastCmd (e : Err) : (raise e s).lastCmd = s.lastCmd := rfl
@[simp] theorem raise_hRData (e : Err) : (raise e s).hRData = s.hRData := rfl
@[simp] theorem raise_schedule (e : Err) : (raise e s).schedule = s.schedule := rfl
@[simp] theorem raise_epoch (e : Err) : (raise e s).epoch = s.epoch := rfl
@[simp] theorem raise_draws (e : Err) : (raise e s).draws = s.draws := rfl

@[simp] theorem readData_writeKey (i : Nat) (v : Byte) (j : Nat) : readData (writeKey s i v) j = readData s j := rfl
@[simp] theorem readPix_writeKey (i : Nat) (v : Byte) (j : Nat) : readPix (writeKey s i v) j = readPix s j := rfl
@[simp] theorem gridSize_writeKey (i : Nat) (v : Byte) : gridSize (writeKey s i v) = gridSize s := rfl
@[simp] theorem readKey_writeData (i : Nat) (v : Byte) (j : Nat) : readKey (writeData s i v) j = readKey s j := rfl
@[simp] theorem readPix_writeData (i : Nat) (v : Byte) (j : Nat) : readPix (writeData s i v) j = readPix s j := rfl
@[simp] theorem gridSize_writeData (i : Nat) (v : Byte) : gridSize (writeData s i v) = gridSize s := rfl
@[simp] theorem readKey_writePix (p : Nat) (v : Pixel) (j : Nat) : readKey (writePix s p v) j = readKey s j := rfl
@[simp] theorem readData_writePix (p : Nat) (v : Pixel) (j : Nat) : readData (writePix s p v) j = readData s j := rfl
@[simp] theorem gridSize_writePix (p : Nat) (v : Pixel) : gridSize (writePix s p v) = gridSize s := rfl
@[simp] theorem readKey_accept (w : Word) (j : Nat) : readKey (accept w s) j = readKey s j := rfl
@[simp] theorem readData_accept (w : Word) (j : Nat) : readData (accept w s) j = readData s j := rfl
@[simp] theorem readPix_accept (w : Word) (j : Nat) : readPix (accept w s) j = readPix s j := rfl
@[simp] theorem gridSize_accept (w : Word) : gridSize (accept w s) = gridSize s := rfl
@[simp] theorem readKey_complete (j : Nat) : readKey (complete s) j = readKey s j := rfl
@[simp] theorem readData_complete (j : Nat) : readData (complete s) j = readData s j := rfl
@[simp] theorem readPix_complete (j : Nat) : readPix (complete s) j = readPix s j := rfl
@[simp] theorem gridSize_complete : gridSize (complete s) = gridSize s := rfl
@[simp] theorem readKey_raise (e : Err) (j : Nat) : readKey (raise e s) j = readKey s j := rfl
@[simp] theorem readData_raise (e : Err) (j : Nat) : readData (raise e s) j = readData s j := rfl
@[simp] theorem readPix_raise (e : Err) (j : Nat) : readPix (raise e s) j = readPix s j := rfl
@[simp] theorem gridSize_raise (e : Err) : gridSize (raise e s) = gridSize s := rfl

end Sys2Proof.Machine
end

