-- ==== Sys2Proof/Laws/Operands.lean ====
section
/-! SUPPORT. The laws of the element accesses and of the datapath (R11, R32, R106, R176), and the induction over the
counted loop. -/

namespace Sys2Proof.Machine

@[simp] theorem readKey_writeKey (s : State) (i j : Nat) (v : Byte) :
    readKey (writeKey s i v) j = if j = i then v else readKey s j := by
  simp [readKey, writeKey]

@[simp] theorem readData_writeData (s : State) (i j : Nat) (v : Byte) :
    readData (writeData s i v) j = if j = i then v else readData s j := by
  simp [readData, writeData]

@[simp] theorem readPix_writePix (s : State) (p q : Nat) (v : Pixel) :
    readPix (writePix s p v) q = if q = p then v else readPix s q := by
  simp [readPix, writePix]

/-- What a read of KEY depends on. -/
theorem readKey_congr {s t : State} (hk : t.key = s.key) (he : t.epoch = s.epoch) (i : Nat) :
    readKey t i = readKey s i := by simp only [readKey, hk, he]

/-- What a read of DATA depends on. -/
theorem readData_congr {s t : State} (hd : t.data = s.data) (he : t.epoch = s.epoch) (i : Nat) :
    readData t i = readData s i := by simp only [readData, hd, he]

/-- What a read of PIX depends on. -/
theorem readPix_congr {s t : State} (hp : t.pix = s.pix) (he : t.epoch = s.epoch) (p : Nat) :
    readPix t p = readPix s p := by simp only [readPix, hp, he]

/-- A property that holds before the loop and that each body keeps holds after it. -/
theorem forUpTo_induct {body : Nat → State → State} {s : State} (P : Nat → State → Prop) (n : Nat) (h0 : P 0 s)
    (hstep : ∀ i t, i < n → P i t → P (i + 1) (body i t)) : P n (forUpTo n body s) := by
  induction n with
  | zero => exact h0
  | succ n ih => exact hstep n _ (Nat.lt_succ_self n) (ih fun i t hi => hstep i t (Nat.lt_succ_of_lt hi))

/-- Bit `k` of a byte, read as a truth value. -/
theorem bitAt_eq (v : Byte) (k : BitVec 3) : bitAt v k = if v.getLsbD k.toNat then 1#8 else 0#8 := by
  have h : ∀ k : Fin 8, ∀ v : BitVec 8, (v >>> k.val) &&& 1#8 = if v.getLsbD k.val then 1#8 else 0#8 := by decide
  exact h ⟨k.toNat, k.isLt⟩ v

/-- Bit 0 of the updated blue value is the bit written, whatever it was before (R106). -/
theorem setLsb_lsb (b bit : Byte) : (setLsb b bit).getLsbD 0 = bit.getLsbD 0 := by
  simp [setLsb]

end Sys2Proof.Machine
end

