-- ==== Sys2Proof/Laws/Cipher.lean ====
section
/-! SUPPORT. What the cipher pass does: everything it can change, and to what (40_xor_cipher.md R77). -/

namespace Sys2Proof.Machine

/-- The loop of the cipher over `n` bytes: only DATA changes, byte `j < n` is XORed with its key byte, and the memory
keeps its form. -/
theorem cipherLoop_spec (s : State) (n : Nat) :
    ∃ d, forUpTo n cipherByte s = { s with data := d } ∧
      (∀ j, elementAt (Config.unwrittenData s.epoch) d j =
        if j < n then readData s j ^^^ keyByteFor s j else readData s j) ∧
      (∀ cap, Memory.wf s.data ∧ Memory.within s.data cap → n ≤ cap → Memory.wf d ∧ Memory.within d cap) := by
  induction n with
  | zero => exact ⟨s.data, rfl, fun j => by simp [readData], fun _ h _ => h⟩
  | succ n ih =>
    obtain ⟨d, he, hr, hm⟩ := ih
    refine ⟨memWrite d n (readData s n ^^^ keyByteFor s n), ?_, fun j => ?_, fun cap h hc =>
      memWrite_ok _ (hm cap h (by omega)) (by omega)⟩
    · have hd : readData { s with data := d } n = readData s n := (hr n).trans (by simp)
      have hk : keyByteFor { s with data := d } n = keyByteFor s n := rfl
      simp only [forUpTo, he, cipherByte, writeData, hk, hd]
    · rw [elementAt_memWrite, hr]
      split_ifs <;> first | rfl | omega | (subst_vars; rfl)

/-- The cipher pass changes DATA only (R77, Writes). -/
theorem cipherPass_frame (s : State) : cipherPass s = { s with data := (cipherPass s).data } := by
  obtain ⟨d, he, -⟩ := cipherLoop_spec s s.dlen
  simp [cipherPass, he]

/-- Each byte of DATA after the cipher pass (R77). -/
theorem readData_cipherPass (s : State) (j : Nat) :
    readData (cipherPass s) j = if j < s.dlen then readData s j ^^^ keyByteFor s j else readData s j := by
  obtain ⟨d, he, hr, -⟩ := cipherLoop_spec s s.dlen
  rw [cipherPass, he]
  exact hr j

/-- The cipher pass keeps DATA's form. -/
theorem cipherPass_dataOk (s : State) {cap : Nat} (h : Memory.wf s.data ∧ Memory.within s.data cap)
    (hc : s.dlen ≤ cap) : Memory.wf (cipherPass s).data ∧ Memory.within (cipherPass s).data cap := by
  obtain ⟨d, he, -, hm⟩ := cipherLoop_spec s s.dlen
  rw [cipherPass, he]
  exact hm cap h hc

end Sys2Proof.Machine
end

