-- ==== Sys2Proof/Laws/Terminator.lean ====
section
/-! SUPPORT. What APPEND's writes and LOCATE's scan do (41_terminator_codec.md R85, R87, R88). -/

namespace Sys2Proof.Machine

/-- APPEND's writes change DATA and DLEN only. -/
theorem appendFrame_frame (s : State) :
    appendFrame s = { s with data := (appendFrame s).data, dlen := s.dlen + 3 } := rfl

/-- Each byte of DATA after APPEND's writes (R85). -/
theorem readData_appendFrame (s : State) (j : Nat) :
    readData (appendFrame s) j =
      if j = s.dlen then 0x00 else if j = s.dlen + 1 then 0x00 else if j = s.dlen + 2 then 0x03 else readData s j := by
  rw [readData_congr (t := appendFrame s) (s := writeData (writeData (writeData s s.dlen (terminatorByte 0)) (s.dlen + 1)
    (terminatorByte 1)) (s.dlen + 2) (terminatorByte 2)) rfl rfl]
  simp only [readData_writeData]
  by_cases h0 : j = s.dlen
  · subst h0; simp [terminatorByte]
  · by_cases h1 : j = s.dlen + 1
    · subst h1; simp [terminatorByte]
    · simp [h0, h1, terminatorByte]

/-- APPEND's writes keep DATA's form. -/
theorem appendFrame_dataOk (s : State) {cap : Nat} (h : Memory.wf s.data ∧ Memory.within s.data cap)
    (hc : s.dlen + 3 ≤ cap) : Memory.wf (appendFrame s).data ∧ Memory.within (appendFrame s).data cap :=
  memWrite_ok _ (memWrite_ok _ (memWrite_ok _ h (by omega)) (by omega)) (by omega)

/-- What a match is (R87). -/
theorem matchAt_iff (s : State) (i : Nat) :
    matchAt s i = true ↔ readData s i = 0x03 ∧ readData s (i - 1) = 0x00 ∧ readData s (i - 2) = 0x00 := by
  simp [matchAt, and_assoc]

/-- What a match depends on. -/
theorem matchAt_congr {s t : State} (i : Nat) (h : ∀ j ≤ i, readData t j = readData s j) :
    matchAt t i = matchAt s i := by
  simp only [matchAt, h i le_rfl, h (i - 1) (Nat.sub_le _ _), h (i - 2) (Nat.sub_le _ _)]

/-- The scan gives the least match of its range (R87, R91). -/
theorem scanFrom_eq_some (s : State) (i n k : Nat) :
    scanFrom s i n = some k ↔ i ≤ k ∧ k < i + n ∧ matchAt s k = true ∧ ∀ j, i ≤ j → j < k → matchAt s j = false := by
  induction n generalizing i with
  | zero => simp only [scanFrom]; constructor
            · intro h; cases h
            · intro h; omega
  | succ n ih =>
    rw [scanFrom]
    split
    · next hm =>
      constructor
      · intro h; cases h; exact ⟨le_rfl, by omega, hm, fun j _ _ => by omega⟩
      · rintro ⟨h1, -, -, h4⟩
        rcases eq_or_lt_of_le h1 with rfl | hlt
        · rfl
        · simp [h4 i le_rfl hlt] at hm
    · next hm =>
      rw [ih]
      constructor
      · rintro ⟨h1, h2, h3, h4⟩
        refine ⟨by omega, by omega, h3, fun j hj hk => ?_⟩
        rcases eq_or_lt_of_le hj with rfl | hlt
        · simpa using hm
        · exact h4 j hlt hk
      · rintro ⟨h1, h2, h3, h4⟩
        have : i ≠ k := fun h => hm (h ▸ h3)
        exact ⟨by omega, by omega, h3, fun j hj hk => h4 j (by omega) hk⟩

/-- The scan finds nothing exactly when its range holds no match (R87). -/
theorem scanFrom_eq_none (s : State) (i n : Nat) :
    scanFrom s i n = none ↔ ∀ j, i ≤ j → j < i + n → matchAt s j = false := by
  induction n generalizing i with
  | zero => simp only [scanFrom, true_iff]; intro j h1 h2; omega
  | succ n ih =>
    rw [scanFrom]
    split
    · next hm =>
      simp only [reduceCtorEq, false_iff]
      intro h; simp [h i le_rfl (by omega)] at hm
    · next hm =>
      rw [ih]
      constructor
      · intro h j h1 h2
        rcases eq_or_lt_of_le h1 with rfl | hlt
        · simpa using hm
        · exact h j hlt (by omega)
      · intro h j h1 h2; exact h j (by omega) (by omega)

/-- `locate` finds `i`: the least index of `2 .. DLEN - 1` with a match (R87). -/
theorem locateIn_eq_some (s : State) (i : Nat) :
    locateIn s = some i ↔ 2 ≤ i ∧ i < s.dlen ∧ matchAt s i = true ∧ ∀ j, 2 ≤ j → j < i → matchAt s j = false := by
  rw [locateIn, scanFrom_eq_some]
  constructor
  · rintro ⟨h1, h2, h3⟩; exact ⟨h1, by omega, h3⟩
  · rintro ⟨h1, h2, h3⟩; exact ⟨h1, by omega, h3⟩

/-- `locate` is NotFound: no index of `2 .. DLEN - 1` has a match (R87). -/
theorem locateIn_eq_none (s : State) :
    locateIn s = none ↔ ∀ j, 2 ≤ j → j < s.dlen → matchAt s j = false := by
  rw [locateIn, scanFrom_eq_none]
  constructor
  · intro h j h1 h2; exact h j h1 (by omega)
  · intro h j h1 h2; exact h j h1 (by omega)

/-- LOCATE's effect on a match (R88). -/
theorem locateCut_found {s : State} {i : Nat} (h : locateIn s = some i) :
    locateCut s = { s with found := true, locIdx := i, dlen := i - 2 } := by simp [locateCut, h]

/-- LOCATE's effect with no match (R88, R90). -/
theorem locateCut_notFound {s : State} (h : locateIn s = none) :
    locateCut s = { s with found := false, locIdx := 0, dlen := 0 } := by simp [locateCut, h]

/-- LOCATE changes FOUND, LOCIDX and DLEN only, and never raises DLEN. -/
theorem locateCut_frame (s : State) :
    locateCut s = { s with found := (locateCut s).found, locIdx := (locateCut s).locIdx, dlen := (locateCut s).dlen } ∧
      (locateCut s).dlen ≤ s.dlen := by
  cases h : locateIn s with
  | none => simp [locateCut_notFound h]
  | some i =>
    have hlt := ((locateIn_eq_some s i).1 h).2.1
    rw [locateCut_found h]
    exact ⟨rfl, Nat.le_of_lt (lt_of_le_of_lt (Nat.sub_le i 2) hlt)⟩

end Sys2Proof.Machine
end

