-- ==== Sys2Proof/Laws/Commute.lean ====
section
/-! SUPPORT. The passes neither read nor write the status fields, and they read the grid's shape only through its
product: each commutes with a change of those fields (R41, R145). -/

namespace Sys2Proof.Machine

/-- A loop commutes with a change of state that its body commutes with. -/
theorem forUpTo_comm {body : Nat → State → State} {f : State → State} (h : ∀ i s, body i (f s) = f (body i s))
    (n : Nat) (s : State) : forUpTo n body (f s) = f (forUpTo n body s) := by
  induction n with
  | zero => rfl
  | succ n ih => rw [forUpTo, forUpTo, ih, h]

/-- `s` with its status fields replaced. -/
def withStatus (e : Err) (b d : Bool) (s : State) : State := { s with err := e, busy := b, done := d }

theorem complete_eq (s : State) : complete s = withStatus .none false true s := rfl

theorem raise_eq (e : Err) (s : State) : raise e s = withStatus e false true s := rfl

@[simp] theorem withStatus_withStatus (e e' : Err) (b b' d d' : Bool) (s : State) :
    withStatus e b d (withStatus e' b' d' s) = withStatus e b d s := rfl

variable (e : Err) (b d : Bool) (s : State)

theorem cipherPass_withStatus : cipherPass (withStatus e b d s) = withStatus e b d (cipherPass s) :=
  forUpTo_comm (body := cipherByte) (f := withStatus e b d) (fun _ _ => rfl) s.dlen s

theorem appendFrame_withStatus : appendFrame (withStatus e b d s) = withStatus e b d (appendFrame s) := rfl

theorem scanFrom_congr {s t : State} (h : ∀ i, readData t i = readData s i) (i n : Nat) :
    scanFrom t i n = scanFrom s i n := by
  induction n generalizing i with
  | zero => rfl
  | succ n ih => rw [scanFrom, scanFrom, ih, matchAt_congr i fun j _ => h j]

theorem locateCut_withStatus : locateCut (withStatus e b d s) = withStatus e b d (locateCut s) := by
  have h : locateIn (withStatus e b d s) = locateIn s :=
    scanFrom_congr (s := s) (t := withStatus e b d s) (fun _ => rfl) 2 (s.dlen - 2)
  rw [locateCut, locateCut, h]
  cases locateIn s <;> rfl

theorem embedPixel_withStatus (p : Nat) : embedPixel p (withStatus e b d s) = withStatus e b d (embedPixel p s) := by
  unfold embedPixel
  rw [show (withStatus e b d s).byteIdx = s.byteIdx from rfl, show (withStatus e b d s).dlen = s.dlen from rfl]
  split <;> rfl

theorem embedPass_withStatus : embedPass (withStatus e b d s) = withStatus e b d (embedPass s) :=
  forUpTo_comm (f := withStatus e b d) (fun p s => embedPixel_withStatus e b d s p) (gridSize s) (embedStart s)

theorem extractPixel_withStatus (p : Nat) :
    extractPixel p (withStatus e b d s) = withStatus e b d (extractPixel p s) := by
  unfold extractPixel
  rw [show extractStep ⟨(withStatus e b d s).byteIdx, (withStatus e b d s).acc, (withStatus e b d s).bitPos⟩
    (readPix (withStatus e b d s) p).b = extractStep ⟨s.byteIdx, s.acc, s.bitPos⟩ (readPix s p).b from rfl]
  rcases extractStep ⟨s.byteIdx, s.acc, s.bitPos⟩ (readPix s p).b with ⟨x, _ | v⟩ <;> rfl

theorem extractLoop_withStatus : extractLoop (withStatus e b d s) = withStatus e b d (extractLoop s) :=
  forUpTo_comm (f := withStatus e b d) (fun p s => extractPixel_withStatus e b d s p) (gridSize s) (extractStart s)

theorem extractPass_withStatus : extractPass (withStatus e b d s) = withStatus e b d (extractPass s) := by
  rw [extractPass, extractLoop_withStatus]; rfl

theorem hidePass_withStatus : hidePass (withStatus e b d s) = withStatus e b d (hidePass s) := by
  simp only [hidePass, cipherPass_withStatus, appendFrame_withStatus, embedPass_withStatus]

theorem showPass_withStatus : showPass (withStatus e b d s) = withStatus e b d (showPass s) := by
  simp only [showPass, cipherPass_withStatus, locateCut_withStatus, extractPass_withStatus]

/-- `s` with another grid shape. -/
def withShape (w h : Nat) (s : State) : State := { s with width := w, height := h }

variable (w h : Nat)

theorem cipherPass_withShape : cipherPass (withShape w h s) = withShape w h (cipherPass s) :=
  forUpTo_comm (body := cipherByte) (f := withShape w h) (fun _ _ => rfl) s.dlen s

theorem appendFrame_withShape : appendFrame (withShape w h s) = withShape w h (appendFrame s) := rfl

theorem locateCut_withShape : locateCut (withShape w h s) = withShape w h (locateCut s) := by
  have hl : locateIn (withShape w h s) = locateIn s :=
    scanFrom_congr (s := s) (t := withShape w h s) (fun _ => rfl) 2 (s.dlen - 2)
  rw [locateCut, locateCut, hl]
  cases locateIn s <;> rfl

theorem embedPixel_withShape (p : Nat) : embedPixel p (withShape w h s) = withShape w h (embedPixel p s) := by
  unfold embedPixel
  rw [show (withShape w h s).byteIdx = s.byteIdx from rfl, show (withShape w h s).dlen = s.dlen from rfl]
  split <;> rfl

theorem embedPass_withShape (hN : w * h = gridSize s) : embedPass (withShape w h s) = withShape w h (embedPass s) := by
  rw [embedPass, embedPass, show gridSize (withShape w h s) = gridSize s from hN]
  exact forUpTo_comm (f := withShape w h) (fun p s => embedPixel_withShape s w h p) (gridSize s) (embedStart s)

theorem extractPixel_withShape (p : Nat) : extractPixel p (withShape w h s) = withShape w h (extractPixel p s) := by
  unfold extractPixel
  rw [show extractStep ⟨(withShape w h s).byteIdx, (withShape w h s).acc, (withShape w h s).bitPos⟩
    (readPix (withShape w h s) p).b = extractStep ⟨s.byteIdx, s.acc, s.bitPos⟩ (readPix s p).b from rfl]
  rcases extractStep ⟨s.byteIdx, s.acc, s.bitPos⟩ (readPix s p).b with ⟨x, _ | v⟩ <;> rfl

theorem extractPass_withShape (hN : w * h = gridSize s) :
    extractPass (withShape w h s) = withShape w h (extractPass s) := by
  have hl : extractLoop (withShape w h s) = withShape w h (extractLoop s) := by
    rw [extractLoop, extractLoop, show gridSize (withShape w h s) = gridSize s from hN]
    exact forUpTo_comm (f := withShape w h) (fun p s => extractPixel_withShape s w h p) (gridSize s) (extractStart s)
  rw [extractPass, hl]; rfl

end Sys2Proof.Machine
end

