-- ==== Sys2Proof/Laws/Embedder.lean ====
section
/-! SUPPORT. What the embedding pass does: everything it can change, and to what (43_lsb_embedder.md R103 to R105). -/

namespace Sys2Proof.Machine

/-- The cursor after `u` payload bits advances to the one after `u + 1` (R103, R104). -/
theorem cursorNext_at (u : Nat) :
    cursorNext ⟨u / 8, BitVec.ofNat 3 (7 - u % 8)⟩ = ⟨(u + 1) / 8, BitVec.ofNat 3 (7 - (u + 1) % 8)⟩ := by
  have h : ∀ r : Fin 8, (BitVec.ofNat 3 (7 - r.val) = 0 ↔ r.val = 7) ∧
      (r.val < 7 → BitVec.ofNat 3 (7 - r.val) - 1 = BitVec.ofNat 3 (7 - (r.val + 1))) := by decide
  have hr := h ⟨u % 8, Nat.mod_lt _ (by norm_num)⟩
  rw [cursorNext]
  split
  · next hz =>
    have : u % 8 = 7 := hr.1.1 hz
    rw [show (u + 1) / 8 = u / 8 + 1 by omega, show (u + 1) % 8 = 0 by omega]; rfl
  · next hz =>
    have hne : u % 8 ≠ 7 := fun h7 => hz (hr.1.2 h7)
    have hlt : u % 8 < 7 := by omega
    rw [show (u + 1) / 8 = u / 8 by omega, show (u + 1) % 8 = u % 8 + 1 by omega, ← hr.2 hlt]

/-- The loop of the embedder over `n` pixels from the start cursor: the cursor counts the payload bits written, the
pixels of those bits have bit 0 of blue replaced, and nothing else changes. -/
theorem embedLoop_spec (s : State) (n : Nat) :
    ∃ d, forUpTo n embedPixel (embedStart s) =
        { s with pix := d, byteIdx := min n (8 * s.dlen) / 8,
                 bitPos := BitVec.ofNat 3 (7 - min n (8 * s.dlen) % 8), pixIdx := n } ∧
      (∀ q, elementAt (Config.unwrittenPix s.epoch) d q =
        if q < n ∧ q < 8 * s.dlen then
          { readPix s q with b := setLsb (readPix s q).b (payloadBit (readData s) q) }
        else readPix s q) ∧
      (∀ cap, Memory.wf s.pix ∧ Memory.within s.pix cap → n ≤ cap → Memory.wf d ∧ Memory.within d cap) := by
  induction n with
  | zero => exact ⟨s.pix, by simp [forUpTo, embedStart, cursorStart], fun q => by simp [readPix], fun _ h _ => h⟩
  | succ n ih =>
    obtain ⟨d, he, hr, hm⟩ := ih
    by_cases hlt : n < 8 * s.dlen
    · have hmin : min n (8 * s.dlen) = n := min_eq_left hlt.le
      have hmin' : min (n + 1) (8 * s.dlen) = n + 1 := min_eq_left hlt
      have hne : n / 8 ≠ s.dlen := by omega
      have hpx : ∀ (b : Nat) (k : BitVec 3) (i : Nat),
          readPix { s with pix := d, byteIdx := b, bitPos := k, pixIdx := i } n = readPix s n :=
        fun _ _ _ => (hr n).trans (by simp)
      have hd : ∀ (b : Nat) (k : BitVec 3) (i : Nat),
          readData { s with pix := d, byteIdx := b, bitPos := k, pixIdx := i } = readData s := fun _ _ _ => rfl
      refine ⟨memWrite d n { readPix s n with b := setLsb (readPix s n).b (payloadBit (readData s) n) }, ?_,
        fun q => ?_, fun cap h hc => memWrite_ok _ (hm cap h (by omega)) (by omega)⟩
      · simp only [forUpTo, he, hmin, hmin', embedPixel, if_neg hne, embedStep, cursorNext_at, hpx, hd, writePix,
          payloadBit]
      · rw [elementAt_memWrite, hr]
        by_cases hq : q = n
        · subst hq; simp [hlt]
        · simp only [if_neg hq, show (q < n + 1 ∧ q < 8 * s.dlen) ↔ (q < n ∧ q < 8 * s.dlen) by omega]
    · have hmin : min n (8 * s.dlen) = 8 * s.dlen := min_eq_right (by omega)
      have hmin' : min (n + 1) (8 * s.dlen) = 8 * s.dlen := min_eq_right (by omega)
      have hdiv : 8 * s.dlen / 8 = s.dlen := by omega
      refine ⟨d, ?_, fun q => ?_, fun cap h hc => hm cap h (by omega)⟩
      · simp only [forUpTo, he, hmin, hmin', embedPixel, hdiv, if_true]
      · rw [hr]
        simp only [show (q < n + 1 ∧ q < 8 * s.dlen) ↔ (q < n ∧ q < 8 * s.dlen) by omega]

/-- What the embedding pass leaves: the end cursor of R104 when the payload fits, and every other field as before. -/
theorem embedPass_frame {s : State} (h : 8 * s.dlen ≤ gridSize s) :
    embedPass s =
      { s with pix := (embedPass s).pix, byteIdx := s.dlen, bitPos := 7, pixIdx := gridSize s } := by
  obtain ⟨d, he, -⟩ := embedLoop_spec s (gridSize s)
  rw [min_eq_right h, show 8 * s.dlen / 8 = s.dlen by omega, show 8 * s.dlen % 8 = 0 by omega] at he
  have e : embedPass s = _ := he
  rw [e]
  rfl

/-- Each pixel after the embedding pass (R105). -/
theorem readPix_embedPass {s : State} (h : 8 * s.dlen ≤ gridSize s) (q : Nat) :
    readPix (embedPass s) q =
      if q < 8 * s.dlen then { readPix s q with b := setLsb (readPix s q).b (payloadBit (readData s) q) }
      else readPix s q := by
  obtain ⟨d, he, hr, -⟩ := embedLoop_spec s (gridSize s)
  have e : embedPass s = _ := he
  rw [e]
  refine (hr q).trans ?_
  simp only [show (q < gridSize s ∧ q < 8 * s.dlen) ↔ q < 8 * s.dlen by omega]

/-- The embedding pass keeps PIX's form. -/
theorem embedPass_pixOk {s : State} {cap : Nat} (h : Memory.wf s.pix ∧ Memory.within s.pix cap)
    (hc : gridSize s ≤ cap) : Memory.wf (embedPass s).pix ∧ Memory.within (embedPass s).pix cap := by
  obtain ⟨d, he, -, hm⟩ := embedLoop_spec s (gridSize s)
  have e : embedPass s = _ := he
  rw [e]
  exact hm cap h hc

end Sys2Proof.Machine
end

