-- ==== Sys2Proof/Laws/Extractor.lean ====
section
/-! SUPPORT. What the extraction pass does: everything it can change, and to what (44_lsb_extractor.md R114 to R116). -/

namespace Sys2Proof.Machine

/-- Bit `i` of a blue bit placed at bit `7 - m`. -/
theorem placed_bit (v : Byte) (m : Nat) (hm : m < 8) (i : Nat) :
    ((v &&& 1#8) <<< (7 - m)).getLsbD i = (decide (i = 7 - m) && v.getLsbD 0) := by
  simp only [BitVec.getLsbD_shiftLeft, BitVec.getLsbD_and, BitVec.getLsbD_one]
  by_cases h : i = 7 - m
  · subst h; simp; omega
  · by_cases h2 : i < 7 - m
    · simp [h, h2]
    · simp [h, show i - (7 - m) ≠ 0 by omega]

/-- Bit `i` of the byte that the first `m` blue values spell is blue bit 0 of the value `7 - i` (R65). -/
theorem packedByte_bit (B : Nat → Byte) (m : Nat) (hm : m ≤ 8) (i : Nat) :
    (packedByte B m).getLsbD i = (decide (i < 8 ∧ 7 - i < m) && (B (7 - i)).getLsbD 0) := by
  induction m generalizing i with
  | zero => simp [packedByte]
  | succ m ih =>
    have ih := ih (by omega)
    have hz : packedByte B m &&& ((B m &&& 1#8) <<< (7 - m)) = 0#8 := by
      apply BitVec.eq_of_getLsbD_eq
      intro k hk
      rw [BitVec.getLsbD_and, ih, placed_bit _ _ (by omega)]
      by_cases h : k = 7 - m
      · subst h; simp; omega
      · simp [h]
    rw [packedByte, BitVec.add_eq_or_of_and_eq_zero _ _ hz, BitVec.getLsbD_or, ih, placed_bit _ _ (by omega)]
    by_cases h : i = 7 - m
    · subst h
      simp [show 7 - (7 - m) = m by omega, show 7 - m < 8 by omega]
    · simp only [h, decide_false, Bool.false_and, Bool.or_false]
      congr 1
      simp only [decide_eq_decide]; omega

/-- Placing the next bit with OR is adding it: "the OR never meets a bit already set" (R114). -/
theorem packedByte_succ (B : Nat → Byte) (m : Nat) (hm : m < 8) :
    packedByte B m ||| lsbPlacedAt (B m) (BitVec.ofNat 3 (7 - m)) = packedByte B (m + 1) := by
  apply BitVec.eq_of_getLsbD_eq
  intro i hi
  have hk : (BitVec.ofNat 3 (7 - m)).toNat = 7 - m := by simp; omega
  rw [BitVec.getLsbD_or, lsbPlacedAt, hk, packedByte_bit _ _ (by omega), packedByte_bit _ _ (by omega),
    placed_bit _ _ hm]
  by_cases h : i = 7 - m
  · subst h
    simp [show 7 - (7 - m) = m by omega, show 7 - m < 8 by omega]
  · simp only [h, decide_false, Bool.false_and, Bool.or_false]
    congr 1
    simp only [decide_eq_decide]; omega

/-- What one step of the extractor gives from the state after `p` pixels (R114). -/
theorem extractStep_at (B : Nat → Byte) (p : Nat) :
    extractStep ⟨p / 8, packedByte (fun j => B (8 * (p / 8) + j)) (p % 8), BitVec.ofNat 3 (7 - p % 8)⟩ (B p) =
      (⟨(p + 1) / 8, packedByte (fun j => B (8 * ((p + 1) / 8) + j)) ((p + 1) % 8),
        BitVec.ofNat 3 (7 - (p + 1) % 8)⟩,
       if p % 8 = 7 then some (packedByte (fun j => B (8 * (p / 8) + j)) 8) else none) := by
  have h : ∀ r : Fin 8, (BitVec.ofNat 3 (7 - r.val) = 0 ↔ r.val = 7) ∧
      (r.val < 7 → BitVec.ofNat 3 (7 - r.val) - 1 = BitVec.ofNat 3 (7 - (r.val + 1))) := by decide
  have hr := h ⟨p % 8, Nat.mod_lt _ (by norm_num)⟩
  have hacc := packedByte_succ (fun j => B (8 * (p / 8) + j)) (p % 8) (Nat.mod_lt _ (by norm_num))
  simp only [show 8 * (p / 8) + p % 8 = p by omega] at hacc
  simp only [extractStep, hacc]
  by_cases h7 : p % 8 = 7
  · rw [if_pos (hr.1.2 h7), if_pos h7, show (p + 1) / 8 = p / 8 + 1 by omega, show (p + 1) % 8 = 0 by omega, h7]
    rfl
  · rw [if_neg (fun hz => h7 (hr.1.1 hz)), if_neg h7, show (p + 1) / 8 = p / 8 by omega,
      show (p + 1) % 8 = p % 8 + 1 by omega, hr.2 (show p % 8 < 7 by omega)]

/-- A step that completes a byte stores it at `DATA[BYTEIDX]` (R112). -/
theorem extractPixel_emit {p : Nat} {s : State} {e : Extraction} {v : Byte}
    (h : extractStep ⟨s.byteIdx, s.acc, s.bitPos⟩ (readPix s p).b = (e, some v)) :
    extractPixel p s = { s with data := memWrite s.data s.byteIdx v, byteIdx := e.count, acc := e.acc,
                                bitPos := e.bitPos, pixIdx := p + 1 } := by
  rw [extractPixel, h]; rfl

/-- A step that completes no byte changes the cursor and ACC only (R112). -/
theorem extractPixel_hold {p : Nat} {s : State} {e : Extraction}
    (h : extractStep ⟨s.byteIdx, s.acc, s.bitPos⟩ (readPix s p).b = (e, none)) :
    extractPixel p s = { s with byteIdx := e.count, acc := e.acc, bitPos := e.bitPos, pixIdx := p + 1 } := by
  rw [extractPixel, h]

/-- The loop of the extractor over `n` pixels: it has emitted the bytes the pixels spell, ACC holds the bits of the
partial byte, and nothing else changes. -/
theorem extractLoop_spec (s : State) (n : Nat) :
    ∃ d, forUpTo n extractPixel (extractStart s) =
        { s with data := d, byteIdx := n / 8, bitPos := BitVec.ofNat 3 (7 - n % 8),
                 acc := packedByte (fun j => (readPix s (8 * (n / 8) + j)).b) (n % 8), pixIdx := n } ∧
      (∀ j, elementAt (Config.unwrittenData s.epoch) d j =
        if j < n / 8 then streamByte s j else readData s j) ∧
      (∀ cap, Memory.wf s.data ∧ Memory.within s.data cap → n / 8 ≤ cap → Memory.wf d ∧ Memory.within d cap) := by
  induction n with
  | zero => exact ⟨s.data, by simp [forUpTo, packedByte, extractStart, cursorStart], fun q => by simp [readData], fun _ h _ => h⟩
  | succ n ih =>
    obtain ⟨d, he, hr, hm⟩ := ih
    have hstep := extractStep_at (fun p => (readPix s p).b) n
    by_cases h7 : n % 8 = 7
    · rw [if_pos h7] at hstep
      refine ⟨memWrite d (n / 8) (streamByte s (n / 8)), ?_, fun j => ?_, fun cap h hc =>
        memWrite_ok _ (hm cap h (by omega)) (by omega)⟩
      · rw [forUpTo, he]
        exact extractPixel_emit (s := { s with
          data := d, byteIdx := n / 8, bitPos := BitVec.ofNat 3 (7 - n % 8), pixIdx := n,
          acc := packedByte (fun j => (readPix s (8 * (n / 8) + j)).b) (n % 8) }) hstep
      · rw [elementAt_memWrite, hr, show (n + 1) / 8 = n / 8 + 1 by omega]
        by_cases hj : j = n / 8
        · rw [if_pos hj, if_pos (by omega), hj]
        · rw [if_neg hj]
          simp only [show j < n / 8 + 1 ↔ j < n / 8 by omega]
    · rw [if_neg h7] at hstep
      refine ⟨d, ?_, fun j => ?_, fun cap h hc => hm cap h (by omega)⟩
      · rw [forUpTo, he]
        exact extractPixel_hold (s := { s with
          data := d, byteIdx := n / 8, bitPos := BitVec.ofNat 3 (7 - n % 8), pixIdx := n,
          acc := packedByte (fun j => (readPix s (8 * (n / 8) + j)).b) (n % 8) }) hstep
      · rw [hr, show (n + 1) / 8 = n / 8 by omega]

/-- What the extraction pass leaves: the end state of R116, DLEN, and every other field as before. -/
theorem extractPass_frame (s : State) :
    extractPass s =
      { s with data := (extractPass s).data, dlen := gridSize s / 8, byteIdx := gridSize s / 8,
               bitPos := BitVec.ofNat 3 (7 - gridSize s % 8),
               acc := packedByte (fun j => (readPix s (8 * (gridSize s / 8) + j)).b) (gridSize s % 8),
               pixIdx := gridSize s } := by
  obtain ⟨d, he, -⟩ := extractLoop_spec s (gridSize s)
  have e : extractLoop s = _ := he
  rw [extractPass, e]

/-- Each byte of DATA after the extraction pass (R115). -/
theorem readData_extractPass (s : State) (j : Nat) :
    readData (extractPass s) j = if j < gridSize s / 8 then streamByte s j else readData s j := by
  obtain ⟨d, he, hr, -⟩ := extractLoop_spec s (gridSize s)
  have e : extractLoop s = _ := he
  rw [extractPass, e]
  exact hr j

/-- The extraction pass keeps DATA's form. -/
theorem extractPass_dataOk (s : State) {cap : Nat} (h : Memory.wf s.data ∧ Memory.within s.data cap)
    (hc : gridSize s / 8 ≤ cap) : Memory.wf (extractPass s).data ∧ Memory.within (extractPass s).data cap := by
  obtain ⟨d, he, -, hm⟩ := extractLoop_spec s (gridSize s)
  have e : extractLoop s = _ := he
  rw [extractPass, e]
  exact hm cap h hc

end Sys2Proof.Machine
end

