-- ==== Sys2Proof/Laws/Exec.lean ====
section
/-! SUPPORT. Once per command meaning: everything it can answer, and the frames of the composite passes. -/

namespace Sys2Proof.Machine

theorem guarded_eq {s t : State} {k d p : Nat} (h : withinBuffers s k d p) : guarded s k d p t = .next t := if_pos h

/-- What a guarded answer is when it is a next state. -/
theorem guarded_next {s t u : State} {k d p : Nat} (h : guarded s k d p t = .next u) :
    withinBuffers s k d p ∧ u = t := by
  unfold guarded at h
  split at h
  · next hw => cases h; exact ⟨hw, rfl⟩
  · cases h

theorem fitsIn_iff (b n : Nat) : fitsIn b n = true ↔ b * 8 ≤ n := by simp [fitsIn]

/-- What XOR, ENCRYPT and DECRYPT can answer. -/
theorem runCipher_next {s t : State} (h : runCipher s = .next t) :
    (s.klen = 0 ∧ t = raise .key s) ∨
      (s.klen ≠ 0 ∧ withinBuffers s s.klen s.dlen 0 ∧ t = complete (cipherPass s)) := by
  unfold runCipher at h
  split at h
  · next hk => cases h; exact .inl ⟨hk, rfl⟩
  · next hk => exact .inr ⟨hk, guarded_next h⟩

/-- What APPEND can answer. -/
theorem execAppend_next {s t : State} (h : execAppend s = .next t) :
    (s.cfg.dmax < s.dlen + 3 ∧ t = raise .overflow s) ∨
      (s.dlen + 3 ≤ s.cfg.dmax ∧ t = complete (appendFrame s)) := by
  unfold execAppend at h
  split at h
  · next ho => cases h; exact .inl ⟨ho, rfl⟩
  · next ho => cases h; exact .inr ⟨Nat.le_of_not_lt ho, rfl⟩

/-- What LOCATE can answer. -/
theorem execLocate_next {s t : State} (h : execLocate s = .next t) :
    withinBuffers s 0 s.dlen 0 ∧ t = complete (locateCut s) := guarded_next h

/-- What FITS can answer. -/
theorem execFits_next {s t : State} (h : execFits s = .next t) :
    t = complete { s with fits := fitsIn s.dlen (gridSize s) } := by cases h; rfl

/-- What EMBED can answer. -/
theorem execEmbed_next {s t : State} (h : execEmbed s = .next t) :
    (gridSize s < s.dlen * 8 ∧ t = raise .capacity s) ∨
      (s.dlen * 8 ≤ gridSize s ∧ withinBuffers s 0 s.dlen (gridSize s) ∧ t = complete (embedPass s)) := by
  unfold execEmbed at h
  split at h
  · next hf => exact .inr ⟨(fitsIn_iff _ _).1 hf, guarded_next h⟩
  · next hf => cases h; exact .inl ⟨Nat.lt_of_not_le fun hle => hf ((fitsIn_iff _ _).2 hle), rfl⟩

/-- What EXTRACT can answer. -/
theorem execExtract_next {s t : State} (h : execExtract s = .next t) :
    withinBuffers s 0 (gridSize s / 8) (gridSize s) ∧ t = complete (extractPass s) := guarded_next h

/-- What HIDE can answer. -/
theorem execHide_next {s t : State} (h : execHide s = .next t) :
    (s.klen = 0 ∧ t = raise .key s) ∨
      (s.klen ≠ 0 ∧ gridSize s < (s.dlen + 3) * 8 ∧ t = raise .capacity s) ∨
      (s.klen ≠ 0 ∧ (s.dlen + 3) * 8 ≤ gridSize s ∧ withinBuffers s s.klen (s.dlen + 3) (gridSize s) ∧
        t = complete (hidePass s)) := by
  unfold execHide at h
  split at h
  · next hk => cases h; exact .inl ⟨hk, rfl⟩
  · next hk =>
    split at h
    · next hf => exact .inr (.inr ⟨hk, (fitsIn_iff _ _).1 hf, guarded_next h⟩)
    · next hf => cases h; exact .inr (.inl ⟨hk, Nat.lt_of_not_le fun hle => hf ((fitsIn_iff _ _).2 hle), rfl⟩)

/-- What SHOW can answer. -/
theorem execShow_next {s t : State} (h : execShow s = .next t) :
    (s.klen = 0 ∧ t = raise .key s) ∨
      (s.klen ≠ 0 ∧ withinBuffers s s.klen (gridSize s / 8) (gridSize s) ∧ t = complete (showPass s)) := by
  unfold execShow at h
  split at h
  · next hk => cases h; exact .inl ⟨hk, rfl⟩
  · next hk => exact .inr ⟨hk, guarded_next h⟩

/-- The pass of a command: its effect when it raises no error. -/
def passOf (i : Instr) (s : State) : State :=
  match i with
  | .xor => cipherPass s
  | .encrypt => cipherPass s
  | .decrypt => cipherPass s
  | .append => appendFrame s
  | .locate => locateCut s
  | .fits => { s with fits := fitsIn s.dlen (gridSize s) }
  | .embed => embedPass s
  | .extract => extractPass s
  | .hide => hidePass s
  | .showMsg => showPass s

/-- The error a command raises from `s`, if any (R135, R142). -/
def errorOf (i : Instr) (s : State) : Err :=
  match i with
  | .xor => if s.klen = 0 then .key else .none
  | .encrypt => if s.klen = 0 then .key else .none
  | .decrypt => if s.klen = 0 then .key else .none
  | .append => if s.cfg.dmax < s.dlen + 3 then .overflow else .none
  | .locate => .none
  | .fits => .none
  | .embed => if gridSize s < s.dlen * 8 then .capacity else .none
  | .extract => .none
  | .hide => if s.klen = 0 then .key else if gridSize s < (s.dlen + 3) * 8 then .capacity else .none
  | .showMsg => if s.klen = 0 then .key else .none

/-- Everything a command can answer that is a next state: the error it raises with nothing else changed, or its pass
completed. -/
theorem exec_next {i : Instr} {s t : State} (h : exec i s = .next t) :
    (errorOf i s ≠ .none ∧ t = raise (errorOf i s) s) ∨ (errorOf i s = .none ∧ t = complete (passOf i s)) := by
  cases i with
  | xor => rcases runCipher_next h with ⟨hk, ht⟩ | ⟨hk, -, ht⟩ <;> simp [errorOf, passOf, hk, ht]
  | encrypt => rcases runCipher_next h with ⟨hk, ht⟩ | ⟨hk, -, ht⟩ <;> simp [errorOf, passOf, hk, ht]
  | decrypt => rcases runCipher_next h with ⟨hk, ht⟩ | ⟨hk, -, ht⟩ <;> simp [errorOf, passOf, hk, ht]
  | append =>
    rcases execAppend_next h with ⟨ho, ht⟩ | ⟨ho, ht⟩
    · simp [errorOf, ho, ht]
    · simp [errorOf, passOf, Nat.not_lt.2 ho, ht]
  | locate => exact .inr ⟨rfl, (execLocate_next h).2⟩
  | fits => exact .inr ⟨rfl, execFits_next h⟩
  | embed =>
    rcases execEmbed_next h with ⟨ho, ht⟩ | ⟨ho, -, ht⟩
    · simp [errorOf, ho, ht]
    · simp [errorOf, passOf, Nat.not_lt.2 ho, ht]
  | extract => exact .inr ⟨rfl, (execExtract_next h).2⟩
  | hide =>
    rcases execHide_next h with ⟨hk, ht⟩ | ⟨hk, ho, ht⟩ | ⟨hk, ho, -, ht⟩
    · simp [errorOf, hk, ht]
    · simp [errorOf, hk, ho, ht]
    · simp [errorOf, passOf, hk, Nat.not_lt.2 ho, ht]
  | showMsg => rcases execShow_next h with ⟨hk, ht⟩ | ⟨hk, -, ht⟩ <;> simp [errorOf, passOf, hk, ht]

/-- The composite pass of HIDE, once the frame fits (R124). -/
theorem hidePass_frame {s : State} (h : (s.dlen + 3) * 8 ≤ gridSize s) :
    hidePass s =
      { s with data := (hidePass s).data, pix := (hidePass s).pix, dlen := s.dlen + 3, byteIdx := s.dlen + 3,
               bitPos := 7, pixIdx := gridSize s } := by
  have hc := cipherPass_frame s
  have ha := appendFrame_frame (cipherPass s)
  have he := embedPass_frame (s := appendFrame (cipherPass s)) (by
    rw [ha, hc]; show 8 * (s.dlen + 3) ≤ gridSize s; omega)
  rw [hidePass, he, ha, hc]
  rfl

/-- Each byte of DATA after the stages of HIDE (R124). -/
theorem readData_hidePass {s : State} (h : (s.dlen + 3) * 8 ≤ gridSize s) (j : Nat) :
    readData (hidePass s) j =
      if j = s.dlen then 0x00 else if j = s.dlen + 1 then 0x00 else if j = s.dlen + 2 then 0x03
      else if j < s.dlen then readData s j ^^^ keyByteFor s j else readData s j := by
  have hc := cipherPass_frame s
  have hd : (cipherPass s).dlen = s.dlen := by rw [hc]
  have he := embedPass_frame (s := appendFrame (cipherPass s)) (by
    rw [appendFrame_frame, hc]; show 8 * (s.dlen + 3) ≤ gridSize s; omega)
  have : readData (hidePass s) j = readData (appendFrame (cipherPass s)) j := by rw [hidePass, he]; rfl
  rw [this, readData_appendFrame, hd, readData_cipherPass]

/-- Each pixel after the stages of HIDE (R124). -/
theorem readPix_hidePass {s : State} (h : (s.dlen + 3) * 8 ≤ gridSize s) (q : Nat) :
    readPix (hidePass s) q =
      if q < 8 * (s.dlen + 3) then
        { readPix s q with b := setLsb (readPix s q).b (payloadBit (readData (hidePass s)) q) }
      else readPix s q := by
  have hc := cipherPass_frame s
  have ha := appendFrame_frame (cipherPass s)
  have hle : 8 * (appendFrame (cipherPass s)).dlen ≤ gridSize (appendFrame (cipherPass s)) := by
    rw [ha, hc]; show 8 * (s.dlen + 3) ≤ gridSize s; omega
  have he := embedPass_frame hle
  have hd : readData (hidePass s) = readData (appendFrame (cipherPass s)) := by rw [hidePass, he]; rfl
  have hp : readPix (appendFrame (cipherPass s)) q = readPix s q := by rw [ha, hc]; rfl
  have hl : (appendFrame (cipherPass s)).dlen = s.dlen + 3 := by rw [ha, hc]
  rw [hd, hidePass, readPix_embedPass hle, hp, hl]

/-- The composite pass of SHOW (R129). -/
theorem showPass_frame (s : State) :
    showPass s =
      { s with
        data := (showPass s).data, found := (locateCut (extractPass s)).found,
        locIdx := (locateCut (extractPass s)).locIdx, dlen := (locateCut (extractPass s)).dlen,
        byteIdx := gridSize s / 8, bitPos := BitVec.ofNat 3 (7 - gridSize s % 8), pixIdx := gridSize s,
        acc := packedByte (fun j => (readPix s (8 * (gridSize s / 8) + j)).b) (gridSize s % 8) } := by
  have hx := extractPass_frame s
  have hl := (locateCut_frame (extractPass s)).1
  have hc := cipherPass_frame (locateCut (extractPass s))
  rw [showPass, hc, hl, hx]

end Sys2Proof.Machine
end

