-- ==== Sys2Proof/Laws/HostPort.lean ====
section
/-! SUPPORT. What a host read and a `WAIT` can change, and what a step does at each event. -/

namespace Sys2Proof.Machine

/-- A read changes the port's output and the counter of free values, and nothing else (R50). -/
theorem hostRead_frame (sel : Region) (idx : Word) (s : State) :
    hostRead sel idx s = { s with hRData := (hostRead sel idx s).hRData, draws := (hostRead sel idx s).draws } := by
  unfold hostRead
  split <;> rfl

/-- One read of a `WAIT`: everything it changes (R70). -/
theorem pollStatus_eq (s : State) :
    pollStatus s = { s with
      hRData := statusWord s
      schedule := if s.done then s.schedule else .sequencer :: .waitDone :: s.schedule } := by
  have hr : hostRead .reg 1 s = { s with hRData := statusWord s } := by simp [hostRead, elementRead, regRead]
  have hd : (statusWord s).getLsbD 1 = s.done := by
    unfold statusWord
    cases s.busy <;> cases s.done <;> cases s.found <;> cases s.fits <;> cases s.err <;> decide
  simp only [pollStatus, hr, hd]
  cases s.done <;> rfl

/-- A step with an event to come takes that event. -/
theorem step_cons {s : State} {e : Event} {rest : List Event} (h : s.schedule = e :: rest) :
    step s = takeEvent e { s with schedule := rest } := by rw [step, h]

/-- The first step of a run, when it gives a next state. -/
theorem run_succ {s t : State} (h : step s = .next t) (n : Nat) :
    Sys2Proof.core.run (n + 1) s = Sys2Proof.core.run n t := by
  have h' : Sys2Proof.core.step s = .next t := h
  simp only [Host.Core.run, h']

end Sys2Proof.Machine
end

