-- ==== Sys2Proof/Laws/PerInstr.lean ====
section
/-! SUPPORT. What holds of every constructor of Instr, one lemma each: the shape of its word (30_encoding.md R59, R61). -/

namespace Sys2Proof.Laws.Encoding

/-- The word of `i` has zero bits 31:8 and its row's opcode below, it is also the word of the command that `i` is a
name of, and the decoder of the opcode table's words gives that command. -/
def Statement (i : Instr) : Prop :=
  zeroField (encode i) = 0 ∧ opcodeField (encode i) = opcodeOf i ∧ encode i.canonical = encode i ∧
    decodeTableWord 32 (encode i).toNat = some i.canonical

theorem xor : Statement .xor := by unfold Statement; decide
theorem encrypt : Statement .encrypt := by unfold Statement; decide
theorem decrypt : Statement .decrypt := by unfold Statement; decide
theorem append : Statement .append := by unfold Statement; decide
theorem locate : Statement .locate := by unfold Statement; decide
theorem fits : Statement .fits := by unfold Statement; decide
theorem embed : Statement .embed := by unfold Statement; decide
theorem extract : Statement .extract := by unfold Statement; decide
theorem hide : Statement .hide := by unfold Statement; decide
theorem showMsg : Statement .showMsg := by unfold Statement; decide

end Sys2Proof.Laws.Encoding
end

