-- ==== Sys2Proof/Tests/Slice0.lean ====
section
/-! SUPPORT. Tests against the vectors of 95_test_vectors.md, and for every statement with hypotheses a witness that
meets them. -/

namespace Sys2Proof.Tests
open Sys2Proof.Machine

/-- A memory whose first elements are `vs`. -/
def indexed {α : Type} (i : Nat) : List α → Memory α
  | [] => []
  | v :: vs => (i, v) :: indexed (i + 1) vs

/-- The reference instance idle, with a key, a data sequence and a grid of the given blue values. -/
def machine (key data : List Byte) (w h : Nat) (blues : List Byte) : State :=
  { State.reset with
    key := indexed 0 key, klen := key.length, data := indexed 0 data, dlen := data.length, width := w, height := h,
    pix := indexed 0 (blues.map fun b => ⟨0x11, 0x22, b⟩) }

/-- The next state of a command, or `s` where it stops. -/
def after (i : Instr) (s : State) : State :=
  match exec i s with
  | .next t => t
  | .fault _ => s
  | .refused _ => s

/-- The next state of a step, or `s` where it stops. -/
def stepped (s : State) : State :=
  match step s with
  | .next t => t
  | .fault _ => s
  | .refused _ => s

/-- The blue values listed in PIX. -/
def blues (s : State) : List Byte := s.pix.map fun x => x.2.b

/-- The bytes listed in DATA. -/
def bytes (s : State) : List Byte := s.data.map fun x => x.2

/-- X1: key "pwd1", data "secret". -/
def cipherState : State := machine [0x70, 0x77, 0x64, 0x31] [0x73, 0x65, 0x63, 0x72, 0x65, 0x74] 0 0 []

/-- L12, the source's example S3. -/
def locateState : State := machine [] [0x05, 0x00, 0x00, 0x03, 0x09, 0x00, 0x00, 0x03] 0 0 []

/-- L4: no terminator. -/
def unmarkedState : State := machine [] [0x03, 0x00, 0x00] 0 0 []

/-- M1. -/
def embedState : State := machine [] [0xA5] 4 2 [0, 1, 2, 255, 254, 128, 127, 7]

/-- T1. -/
def extractState : State := machine [] [] 3 3 [0xFF, 0xFE, 0x01, 0x00, 0x80, 0x81, 0x7E, 0x7F, 0x03]

/-- H1: an empty Message in a 5 by 5 grid, key 6B. -/
def hideState : State := machine [0x6B] [] 5 5 [0x00, 0x03, 0x06, 0x09, 0x0C, 0x0F, 0x12, 0x15, 0x18, 0x1B, 0x1E,
  0x21, 0x24, 0x27, 0x2A, 0x2D, 0x30, 0x33, 0x36, 0x39, 0x3C, 0x3F, 0x42, 0x45, 0x48]

/-- H6: a grid that was never hidden in, key 01. -/
def blankGrid : State := machine [0x01] [] 8 8 (List.replicate 64 0)

/-- A Message whose ciphertext is `00 00 03`, in a grid that holds its frame exactly. -/
def truncatedState : State := machine [0x61] [0x61, 0x61, 0x62] 8 6 (List.replicate 48 0)

/-- A grid of 24 pixels that spells `00 00 03`, key 01. -/
def markedGrid : State := machine [0x01] [] 6 4 (List.replicate 22 0 ++ [1, 1])

/-- DLEN = DMAX - 3, the largest length APPEND accepts (A3). -/
def nearlyFull : State := { machine [] [] 0 0 [] with dlen := 4093 }

/-- DLEN = DMAX - 2 (A4). -/
def tooFull : State := { machine [] [] 0 0 [] with dlen := 4094 }

/-! ## Well-formedness and decoding -/

theorem test_wellFormed_refuses_aliases :
    Instr.wellFormed .encrypt = false ∧ Instr.wellFormed .decrypt = false ∧ Instr.wellFormed .xor = true := by decide

/-- The full words of R61 and R71, one for each constructor. -/
theorem test_words_of_the_opcode_map :
    encode .xor = 0x00000001 ∧ encode .encrypt = 0x00000001 ∧ encode .decrypt = 0x00000001 ∧
    encode .append = 0x00000002 ∧ encode .locate = 0x00000003 ∧ encode .fits = 0x00000004 ∧
    encode .embed = 0x00000005 ∧ encode .extract = 0x00000006 ∧ encode .hide = 0x00000007 ∧
    encode .showMsg = 0x00000008 := by decide

/-- R59, R61: bits 31:8 zero, then the opcode, for each of the eight words. -/
theorem test_decode_legal_words :
    decode 0b000000000000000000000000_00000001#32 = .ok .xor ∧
    decode 0b000000000000000000000000_00000010#32 = .ok .append ∧
    decode 0b000000000000000000000000_00000011#32 = .ok .locate ∧
    decode 0b000000000000000000000000_00000100#32 = .ok .fits ∧
    decode 0b000000000000000000000000_00000101#32 = .ok .embed ∧
    decode 0b000000000000000000000000_00000110#32 = .ok .extract ∧
    decode 0b000000000000000000000000_00000111#32 = .ok .hide ∧
    decode 0b000000000000000000000000_00001000#32 = .ok .showMsg := by decide

/-- E1 to E4. -/
theorem test_decode_illegal_words :
    decode 0x00000000 = .error .unassignedOpcode ∧ decode 0x00000009 = .error .unassignedOpcode ∧
    decode 0x00000101 = .error .nonzeroUpperBits ∧ decode 0xFFFFFFFF = .error .nonzeroUpperBits := by decide

theorem test_decodeTableWord : decodeTableWord 32 8 = some .showMsg ∧ decodeTableWord 32 0 = none := by decide

/-! ## The commands -/

/-- X1. -/
theorem test_xor_wraps_the_key : bytes (after .xor cipherState) = [0x03, 0x12, 0x07, 0x43, 0x15, 0x03] := by decide

/-- X8. -/
theorem test_xor_empty_key :
    after .xor (machine [] [0x01, 0x02] 0 0 []) = raise .key (machine [] [0x01, 0x02] 0 0 []) := by decide

/-- X6, under the two aliases. -/
theorem test_decrypt_undoes_encrypt :
    bytes (after .encrypt (machine [0x4B, 0x65, 0x79] [0x48, 0x69, 0x21, 0x00, 0xFF] 0 0 [])) =
      [0x03, 0x0C, 0x58, 0x4B, 0x9A] ∧
    bytes (after .decrypt (machine [0x4B, 0x65, 0x79] [0x03, 0x0C, 0x58, 0x4B, 0x9A] 0 0 [])) =
      [0x48, 0x69, 0x21, 0x00, 0xFF] := by decide

/-- A5. -/
theorem test_append_ignores_old_terminators :
    bytes (after .append (machine [] [0x00, 0x00, 0x03] 0 0 [])) = [0x00, 0x00, 0x03, 0x00, 0x00, 0x03] ∧
    (after .append (machine [] [0x00, 0x00, 0x03] 0 0 [])).dlen = 6 := by decide

/-- A3, A4. -/
theorem test_append_at_the_end_of_the_buffer :
    (after .append nearlyFull).dlen = 4096 ∧ after .append tooFull = raise .overflow tooFull := by decide

/-- L12. -/
theorem test_locate_takes_the_earliest :
    (after .locate locateState).found = true ∧ (after .locate locateState).locIdx = 3 ∧
    (after .locate locateState).dlen = 1 ∧ bytes (after .locate locateState) = bytes locateState := by decide

/-- L4. -/
theorem test_locate_wrong_order :
    (after .locate unmarkedState).found = false ∧ (after .locate unmarkedState).dlen = 0 := by decide

/-- F1, F2. -/
theorem test_fits_exact :
    (after .fits { machine [] [] 4 4 [] with dlen := 5 }).fits = false ∧
    (after .fits { machine [] [] 4 4 [] with dlen := 2 }).fits = true := by decide

/-- M1. -/
theorem test_embed_sets_and_clears :
    blues (after .embed embedState) = [1, 0, 3, 254, 254, 129, 126, 7] ∧
    (after .embed embedState).byteIdx = 1 ∧ (after .embed embedState).bitPos = 7 ∧
    (after .embed embedState).pixIdx = 8 := by decide

/-- M3. -/
theorem test_embed_passthrough :
    blues (after .embed (machine [] [0x00] 10 1 [3, 3, 3, 3, 3, 3, 3, 3, 3, 3])) = [2, 2, 2, 2, 2, 2, 2, 2, 3, 3] := by
  decide

/-- T1. -/
theorem test_extract_keeps_the_trailing_bit :
    bytes (after .extract extractState) = [0xA5] ∧ (after .extract extractState).dlen = 1 ∧
    (after .extract extractState).acc = 0x80 ∧ (after .extract extractState).byteIdx = 1 ∧
    (after .extract extractState).bitPos = 6 ∧ (after .extract extractState).pixIdx = 9 := by decide

/-- T2. -/
theorem test_extract_no_byte :
    (after .extract (machine [] [] 7 1 [1, 1, 1, 1, 1, 1, 1])).acc = 0xFE ∧
    (after .extract (machine [] [] 7 1 [1, 1, 1, 1, 1, 1, 1])).bitPos = 0 := by decide

/-- H1. -/
theorem test_hide_empty_message :
    bytes (after .hide hideState) = [0x00, 0x00, 0x03] ∧ (after .hide hideState).byteIdx = 3 ∧
    blues (after .hide hideState) = [0x00, 0x02, 0x06, 0x08, 0x0C, 0x0E, 0x12, 0x14, 0x18, 0x1A, 0x1E, 0x20, 0x24,
      0x26, 0x2A, 0x2C, 0x30, 0x32, 0x36, 0x38, 0x3C, 0x3E, 0x43, 0x45, 0x48] := by decide

/-- H3, H4. -/
theorem test_hide_checks :
    after .hide (machine [0x6B] [0x48, 0x69] 4 4 []) = raise .capacity (machine [0x6B] [0x48, 0x69] 4 4 []) ∧
    after .hide (machine [] [0x48, 0x69] 4 4 []) = raise .key (machine [] [0x48, 0x69] 4 4 []) := by decide

/-- H8. -/
theorem test_show_too_small :
    bytes (after .showMsg (machine [0x01] [] 4 5 (List.replicate 20 1))) = [0xFF, 0xFF] ∧
    (after .showMsg (machine [0x01] [] 4 5 (List.replicate 20 1))).found = false ∧
    (after .showMsg (machine [0x01] [] 4 5 (List.replicate 20 1))).acc = 0xF0 ∧
    (after .showMsg (machine [0x01] [] 4 5 (List.replicate 20 1))).bitPos = 3 := by decide

/-- The frame of the Message `41`: R129 decrypts up to the terminator and leaves it in place. -/
theorem test_show_decrypts_up_to_the_terminator :
    bytes (after .showMsg (machine [0x4B] [] 8 4
      ([0, 0, 0, 0, 1, 0, 1, 0] ++ List.replicate 22 0 ++ [1, 1]))) = [0x41, 0x00, 0x00, 0x03] ∧
    (after .showMsg (machine [0x4B] [] 8 4
      ([0, 0, 0, 0, 1, 0, 1, 0] ++ List.replicate 22 0 ++ [1, 1]))).locIdx = 3 := by decide

/-! ## The port and the step -/

/-- Z1. -/
theorem test_reset_status :
    statusWord State.reset = 0 ∧ State.reset.bitPos = 7 ∧ State.reset.klen = 0 ∧ State.reset.lastCmd = 0 := by decide

/-- Z2, Z3. -/
theorem test_first_command_after_reset :
    statusWord (stepped (State.reset.withFetchWord 32 1)) = 0x00000012 ∧
    statusWord (stepped (State.reset.withFetchWord 32 4)) = 0x0000000A := by decide

/-- E3: an illegal word, its upper bits not dropped. -/
theorem test_illegal_word :
    statusWord (stepped (cipherState.withFetchWord 32 0x101)) = 0x00000032 ∧
    (stepped (cipherState.withFetchWord 32 0x101)).data = cipherState.data := by decide

/-- E9, E11, E12. -/
theorem test_host_port :
    (hostWrite .reg 2 257 cipherState).klen = 4 ∧
    (hostRead .data 4096 (hostWrite .data 4096 1 cipherState)).hRData = 0 ∧
    (hostRead .pix 0 (hostWrite .pix 0 0xFF123456 cipherState)).hRData = 0x00123456 := by decide

/-- P1, steps 11 and 12: the script's CMD and WAIT on a loaded block. -/
theorem test_script_encrypt :
    (stepped (stepped (stepped (stepped { cipherState with schedule := scriptSchedule [.cmd .encrypt, .wait] })))).hRData =
      0x00000002 := by decide

/-- R70 on a block straight after reset, where DONE = 0: the script does not go on past WAIT. -/
theorem test_script_wait_needs_done :
    (stepped { State.reset with schedule := scriptSchedule [.wait, .cmd .fits] }).schedule =
      .sequencer :: scriptSchedule [.wait, .cmd .fits] := by decide

/-! ## Witnesses: for each statement with hypotheses, states and operands that meet all of them -/

/-- A command running, for the statements of the BUSY window. -/
def runningState : State := accept 0x00000001 cipherState

/-- A state with ERR = E_KEY left by an empty-key XOR. -/
def keyErrorState : State := machine [] [0x01, 0x02] 0 0 []

/-- A write of `w` to CMD and the completion of the command, from an idle state. -/
def withCommand (w : Word) (s : State) : State := { s with schedule := [.access (.write .reg 0 w), .sequencer] }

theorem witness_ResetEventRestoresTheRegistersFromAnyState :
    { runningState with schedule := [.reset, .sequencer] }.schedule = .reset :: [.sequencer] := by decide

theorem witness_IdleBlockDoesNothing :
    State.reset.busy = false ∧ State.reset.schedule = [] ∧
    { State.reset with schedule := [.sequencer] }.schedule = .sequencer :: [] := by decide

theorem witness_DecodeOfEncodeIsTheCommand :
    Instr.wellFormed .showMsg = true ∧ Instr.wellFormed .decrypt = false := by decide

theorem witness_StepRunsTheAcceptedCommand :
    runningState.busy = true ∧ decode runningState.lastCmd = .ok .xor ∧ runningState.schedule = [] ∧
    { runningState with schedule := [.sequencer, .reset] }.schedule = .sequencer :: [.reset] := by decide

theorem witness_StepDeliversTheNextHostAccess :
    (withCommand 4 cipherState).schedule = .access (.write .reg 0 4) :: [.sequencer] := by decide

theorem witness_CmdWriteIsAcceptedWhenIdle : cipherState.busy = false ∧ runningState.busy = true := by decide

theorem witness_EveryAcceptedCommandCompletes :
    State.InRange { cipherState with schedule := [.access (.write .reg 0 0xFFFFFFFF)] } ∧
    { cipherState with schedule := [.access (.write .reg 0 0xFFFFFFFF)] }.busy = false ∧
    { cipherState with schedule := [.access (.write .reg 0 0xFFFFFFFF)] }.schedule =
      [.access (.write .reg 0 0xFFFFFFFF)] := by decide

/-- E2 and E3: the first opcode above the legal range, and a legal low byte under an upper bit. -/
theorem witness_IllegalWordReportsAndChangesNothingElse :
    (withCommand 9 cipherState).busy = false ∧
    (withCommand 9 cipherState).schedule = .access (.write .reg 0 9) :: .sequencer :: [] ∧
    (∀ i : Instr, encode i ≠ 9) ∧ ∀ i : Instr, encode i ≠ 0x101 := by
  refine ⟨by decide, by decide, fun i => ?_, fun i => ?_⟩ <;> cases i <;> decide

/-- After a completion, after reset, and an idle block before CMD. -/
theorem witness_CmdThenWaitReadsDone :
    { complete cipherState with schedule := [.waitDone, .reset] }.schedule = .waitDone :: [.reset] ∧
    { complete cipherState with schedule := [.waitDone, .reset] }.done = true ∧
    { State.reset with schedule := [.waitDone] }.schedule = .waitDone :: [] ∧
    { State.reset with schedule := [.waitDone] }.done = false ∧
    { State.reset with schedule := [.waitDone] }.busy = false ∧
    State.InRange { cipherState with schedule := scriptSchedule [.cmd .xor, .wait] } ∧
    { cipherState with schedule := scriptSchedule [.cmd .xor, .wait] }.busy = false ∧
    { cipherState with schedule := scriptSchedule [.cmd .xor, .wait] }.schedule =
      scriptSchedule [.cmd .xor, .wait] := by decide

theorem witness_XorReplacesDataByKeyedBytes :
    isCipher .encrypt ∧ keyErrorState.klen = 0 ∧ cipherState.InRange ∧ 1 ≤ cipherState.klen ∧
    (5 < cipherState.dlen ∧ cipherState.dlen ≤ 6) := by decide

theorem witness_EmptyKeyAbortsEveryCipherCommand :
    (isCipher .xor ∨ Instr.xor = .hide ∨ Instr.xor = .showMsg) ∧
    (isCipher .hide ∨ Instr.hide = .hide ∨ Instr.hide = .showMsg) ∧ keyErrorState.klen = 0 := by decide

theorem witness_XorTwiceRestoresData :
    isCipher .encrypt ∧ isCipher .decrypt ∧ cipherState.InRange ∧ 1 ≤ cipherState.klen ∧
    exec .encrypt cipherState = .next (after .encrypt cipherState) := ⟨by decide, by decide, by decide, by decide, rfl⟩

/-- A key of four bytes over six, and X10: a key of `00` bytes. -/
theorem witness_CipherIsPeriodicInTheKey :
    isCipher .xor ∧ cipherState.InRange ∧ 1 ≤ cipherState.klen ∧ 1 + cipherState.klen < cipherState.dlen ∧
    exec .xor cipherState = .next (after .xor cipherState) ∧
    (∀ k < (machine [0x00, 0x00] [0xDE, 0xAD] 0 0 []).klen, readKey (machine [0x00, 0x00] [0xDE, 0xAD] 0 0 []) k = 0) :=
  ⟨by decide, by decide, by decide, by decide, rfl, by decide⟩

theorem witness_AppendWritesTheTerminator :
    tooFull.cfg.dmax < tooFull.dlen + 3 ∧ nearlyFull.dlen + 3 ≤ nearlyFull.cfg.dmax ∧
    (0 < nearlyFull.dlen ∧ nearlyFull.dlen + 3 ≤ 4096) := by decide

theorem witness_LocateCutsAtTheFirstTerminator :
    locateState.InRange ∧ firstMarker (readData locateState) locateState.dlen 3 ∧
    unmarkedState.InRange ∧ noMarker (readData unmarkedState) unmarkedState.dlen := by
  unfold firstMarker noMarker; decide

/-- The frame of `05` in L12, and a frame of `00 00 03` itself: the earliest marker is inside the sequence. -/
theorem witness_LocateOnAFrameFindsTheEarliestMarker :
    (locateState.InRange ∧ 1 + 3 ≤ locateState.dlen ∧ readData locateState 1 = 0x00 ∧
      readData locateState (1 + 1) = 0x00 ∧ readData locateState (1 + 2) = 0x03 ∧ noMarker (readData locateState) 1) ∧
    (5 + 3 ≤ locateState.dlen ∧ readData locateState 5 = 0x00 ∧ readData locateState (5 + 1) = 0x00 ∧
      readData locateState (5 + 2) = 0x03 ∧ firstMarker (readData locateState) 5 3) := by
  unfold firstMarker noMarker; decide

theorem witness_AppendThenLocateRestoresUnmarkedData :
    cipherState.InRange ∧ cipherState.dlen + 3 ≤ cipherState.cfg.dmax ∧
    exec .append cipherState = .next (after .append cipherState) ∧
    noMarker (readData cipherState) cipherState.dlen := by
  refine ⟨by decide, by decide, rfl, ?_⟩
  unfold noMarker; decide

theorem witness_EmbedWritesOneBitPerPixel :
    embedState.InRange ∧ embedState.dlen * 8 ≤ embedState.width * embedState.height ∧ 7 < 8 * embedState.dlen ∧
    8 * embedState.dlen ≤ 8 := by decide

theorem witness_EmbedCursorFollowsThePayloadBits :
    8 ≤ embedState.width * embedState.height ∧ 8 ≤ 8 * embedState.dlen ∧ 8 * embedState.dlen ≤ 8 := by decide

/-- M6: 24 bits over 16 pixels. -/
theorem witness_EmbedRefusesWhatDoesNotFit :
    (machine [] [0x01, 0x02, 0x03] 4 4 []).width * (machine [] [0x01, 0x02, 0x03] 4 4 []).height <
      (machine [] [0x01, 0x02, 0x03] 4 4 []).dlen * 8 := by decide

/-- The second state differs in bit 0 of every blue value. -/
theorem witness_EmbedIsIdempotent :
    embedState.InRange ∧ embedState.dlen * 8 ≤ embedState.width * embedState.height ∧
    exec .embed embedState = .next (after .embed embedState) ∧
    (machine [] [0xA5] 4 2 [1, 0, 3, 254, 255, 129, 126, 6]).InRange ∧
    (machine [] [0xA5] 4 2 [1, 0, 3, 254, 255, 129, 126, 6]).width = embedState.width ∧
    (machine [] [0xA5] 4 2 [1, 0, 3, 254, 255, 129, 126, 6]).height = embedState.height ∧
    (machine [] [0xA5] 4 2 [1, 0, 3, 254, 255, 129, 126, 6]).dlen = embedState.dlen ∧
    sameData embedState (machine [] [0xA5] 4 2 [1, 0, 3, 254, 255, 129, 126, 6]) ∧
    ∀ p < 8 * embedState.dlen,
      (readPix (machine [] [0xA5] 4 2 [1, 0, 3, 254, 255, 129, 126, 6]) p).r = (readPix embedState p).r ∧
      (readPix (machine [] [0xA5] 4 2 [1, 0, 3, 254, 255, 129, 126, 6]) p).g = (readPix embedState p).g ∧
      (readPix (machine [] [0xA5] 4 2 [1, 0, 3, 254, 255, 129, 126, 6]) p).b &&& 0xFE#8 =
        (readPix embedState p).b &&& 0xFE#8 :=
  ⟨by decide, by decide, rfl, by decide, by decide, by decide, by decide, fun _ => rfl, by decide⟩

/-- T1: `N = 9`, one byte and one trailing bit. -/
theorem witness_ExtractPacksTheBlueBits :
    extractState.InRange ∧ 0 < extractState.width * extractState.height / 8 ∧
    extractState.width * extractState.height / 8 ≤ 1 := by decide

/-- T7, with DATA emptied in between. -/
theorem witness_ExtractAfterEmbedReturnsTheSequence :
    embedState.InRange ∧ embedState.dlen * 8 ≤ embedState.width * embedState.height ∧
    exec .embed embedState = .next (after .embed embedState) ∧
    State.InRange { after .embed embedState with data := [], dlen := 0 } ∧
    { after .embed embedState with data := [], dlen := 0 }.width = (after .embed embedState).width ∧
    { after .embed embedState with data := [], dlen := 0 }.height = (after .embed embedState).height ∧
    samePix (after .embed embedState) { after .embed embedState with data := [], dlen := 0 } :=
  ⟨by decide, by decide, rfl, by decide, rfl, rfl, fun _ => rfl⟩

theorem witness_HideEmbedsTheEncryptedFrame :
    truncatedState.InRange ∧ 1 ≤ truncatedState.klen ∧
    (truncatedState.dlen + 3) * 8 ≤ truncatedState.width * truncatedState.height ∧
    47 < 8 * (truncatedState.dlen + 3) ∧ hideState.InRange ∧ 1 ≤ hideState.klen ∧
    (hideState.dlen + 3) * 8 ≤ hideState.width * hideState.height ∧ 8 * (hideState.dlen + 3) ≤ 24 := by decide

/-- H3 and H4. -/
theorem witness_HideAbortsBeforeItWrites :
    (machine [] [0x48, 0x69] 4 4 []).klen = 0 ∧ 1 ≤ (machine [0x6B] [0x48, 0x69] 4 4 []).klen ∧
    (machine [0x6B] [0x48, 0x69] 4 4 []).width * (machine [0x6B] [0x48, 0x69] 4 4 []).height <
      ((machine [0x6B] [0x48, 0x69] 4 4 []).dlen + 3) * 8 := by decide

theorem witness_HideIsXorAppendEmbed :
    hideState.InRange ∧ 1 ≤ hideState.klen ∧ (hideState.dlen + 3) * 8 ≤ hideState.width * hideState.height := by decide

theorem witness_ShowRecoversUpToTheFirstMarker :
    (markedGrid.InRange ∧ 1 ≤ markedGrid.klen ∧
      firstMarker (streamByte markedGrid) (markedGrid.width * markedGrid.height / 8) 2) ∧
    (blankGrid.InRange ∧ 1 ≤ blankGrid.klen ∧
      noMarker (streamByte blankGrid) (blankGrid.width * blankGrid.height / 8)) := by
  unfold firstMarker noMarker; decide

theorem witness_ShowIsExtractLocateXor : markedGrid.InRange ∧ 1 ≤ markedGrid.klen := by decide

/-- A wrong key, another shape and other bits 7:1 of blue. -/
theorem witness_ShowDecisionsDependOnBlueBitsOnly :
    markedGrid.InRange ∧ (machine [0x02, 0x03] [] 4 6 (List.replicate 22 0xFE ++ [0xFF, 3])).InRange ∧
    1 ≤ markedGrid.klen ∧ 1 ≤ (machine [0x02, 0x03] [] 4 6 (List.replicate 22 0xFE ++ [0xFF, 3])).klen ∧
    (machine [0x02, 0x03] [] 4 6 (List.replicate 22 0xFE ++ [0xFF, 3])).width *
      (machine [0x02, 0x03] [] 4 6 (List.replicate 22 0xFE ++ [0xFF, 3])).height =
      markedGrid.width * markedGrid.height ∧
    ∀ p < markedGrid.width * markedGrid.height,
      (readPix (machine [0x02, 0x03] [] 4 6 (List.replicate 22 0xFE ++ [0xFF, 3])) p).b.getLsbD 0 =
        (readPix markedGrid p).b.getLsbD 0 := by decide

/-- H1 then H2 (the Message comes back), and a ciphertext `00 00 03` (it is cut). -/
theorem witness_HideThenShowRoundTrip :
    (hideState.InRange ∧ 1 ≤ hideState.klen ∧ (hideState.dlen + 3) * 8 ≤ hideState.width * hideState.height ∧
      exec .hide hideState = .next (after .hide hideState) ∧ (after .hide hideState).InRange ∧
      samePix (after .hide hideState) (after .hide hideState) ∧
      sameKey (after .hide hideState) (after .hide hideState) ∧
      noMarker (fun k => readData hideState k ^^^ readKey hideState (k % hideState.klen)) hideState.dlen) ∧
    (truncatedState.InRange ∧ 1 ≤ truncatedState.klen ∧
      (truncatedState.dlen + 3) * 8 ≤ truncatedState.width * truncatedState.height ∧
      firstMarker (fun k => readData truncatedState k ^^^ readKey truncatedState (k % truncatedState.klen))
        truncatedState.dlen 2) := by
  refine ⟨⟨by decide, by decide, by decide, rfl, by decide, fun _ => rfl, fun _ => rfl, ?_⟩,
    by decide, by decide, by decide, ?_⟩
  · unfold noMarker; decide
  · unfold firstMarker; decide

theorem witness_AbortChangesOnlyTheStatus :
    exec .xor keyErrorState = .next (after .xor keyErrorState) ∧ (after .xor keyErrorState).err ≠ .none ∧
    keyErrorState.busy = false ∧
    (withCommand 1 keyErrorState).schedule = .access (.write .reg 0 1) :: .sequencer :: [] ∧
    step (withCommand 1 keyErrorState) = .next (stepped (withCommand 1 keyErrorState)) ∧
    step (stepped (withCommand 1 keyErrorState)) = .next (stepped (stepped (withCommand 1 keyErrorState))) ∧
    (stepped (stepped (withCommand 1 keyErrorState))).err ≠ .none :=
  ⟨rfl, by decide, by decide, by decide, rfl, rfl, by decide⟩

theorem witness_ErrorsAreRaisedExactlyAsListed :
    exec .append tooFull = .next (after .append tooFull) ∧ (after .append tooFull).err = .overflow :=
  ⟨rfl, by decide⟩

/-- Two running blocks with different buffers and the same lengths. -/
theorem witness_ErrorDependsOnTheLengthsOnly :
    (accept 1 keyErrorState).busy = true ∧ (accept 1 (machine [] [0x05, 0x06] 0 0 [])).busy = true ∧
    (accept 1 keyErrorState).schedule = [] ∧ (accept 1 (machine [] [0x05, 0x06] 0 0 [])).schedule = [] ∧
    (accept 1 (machine [] [0x05, 0x06] 0 0 [])).cfg = (accept 1 keyErrorState).cfg ∧
    (accept 1 (machine [] [0x05, 0x06] 0 0 [])).lastCmd = (accept 1 keyErrorState).lastCmd ∧
    (accept 1 (machine [] [0x05, 0x06] 0 0 [])).klen = (accept 1 keyErrorState).klen ∧
    (accept 1 (machine [] [0x05, 0x06] 0 0 [])).dlen = (accept 1 keyErrorState).dlen ∧
    (accept 1 (machine [] [0x05, 0x06] 0 0 [])).width = (accept 1 keyErrorState).width ∧
    (accept 1 (machine [] [0x05, 0x06] 0 0 [])).height = (accept 1 keyErrorState).height ∧
    step (accept 1 keyErrorState) = .next (stepped (accept 1 keyErrorState)) ∧
    step (accept 1 (machine [] [0x05, 0x06] 0 0 [])) = .next (stepped (accept 1 (machine [] [0x05, 0x06] 0 0 []))) :=
  ⟨by decide, by decide, by decide, by decide, by decide, by decide, by decide, by decide, by decide, by decide,
    rfl, rfl⟩

theorem witness_AnErrorNeverAltersALaterCommand :
    keyErrorState.busy = false ∧ ∀ v, Access.read .reg 1 ≠ .write .reg 0 v :=
  ⟨by decide, fun _ h => by cases h⟩

theorem witness_CommandsNeverWriteTheHostsOperands : exec .hide hideState = .next (after .hide hideState) := rfl

theorem witness_OnlyBlueBitZeroEverChanges : exec .embed embedState = .next (after .embed embedState) := rfl

/-- FITS, EMBED and XOR meet the guards of every clause between them. -/
theorem witness_CommandsWriteOnlyTheirOwnState :
    exec .embed embedState = .next (after .embed embedState) ∧
    (Instr.embed ≠ .locate ∧ Instr.embed ≠ .showMsg ∧ Instr.embed ≠ .fits ∧ Instr.embed ≠ .extract) ∧
    exec .xor cipherState = .next (after .xor cipherState) ∧
    (Instr.xor ≠ .embed ∧ Instr.xor ≠ .extract ∧ Instr.xor ≠ .hide ∧ Instr.xor ≠ .showMsg) ∧ isCipher .xor ∧
    exec .locate locateState = .next (after .locate locateState) :=
  ⟨rfl, by decide, rfl, by decide, by decide, rfl⟩

theorem witness_CommandsDependOnTheGridsProductOnly :
    8 * 1 = embedState.width * embedState.height ∧ exec .embed embedState = .next (after .embed embedState) :=
  ⟨by decide, rfl⟩

theorem witness_NoCommandLeavesItsBuffers : (machine [0x01] [0x02] 128 128 []).InRange := by decide

/-- A state that no run reaches: DLEN beyond DMAX. -/
theorem witness_CommandsFaultExactlyOutsideTheBuffers :
    exec .locate { State.reset with dlen := 4097 } = .fault .elementOutsideBuffer := rfl

theorem witness_EveryStepKeepsTheInvariant :
    (accept 5 embedState).Inv ∧ step (accept 5 embedState) = .next (stepped (accept 5 embedState)) :=
  ⟨by decide, rfl⟩

theorem witness_NoStepStopsInALegalState : (accept 8 markedGrid).Inv := by decide

theorem witness_EveryStepKeepsTheResultsCoherent :
    (accept 3 locateState).Coherent ∧ step (accept 3 locateState) = .next (stepped (accept 3 locateState)) :=
  ⟨by decide, rfl⟩

/-- The reference instance, and the smallest sizes R8 allows a buffer. -/
theorem witness_ResetMeetsTheInvariant :
    Config.Params.reference.legal ∧ (Config.Params.mk 1 3 1 1).legal := by decide

theorem witness_EveryRunFromResetStaysLegal : (Config.Params.mk 1 3 1 1).legal := by decide

theorem witness_HostWritesAreIgnoredWhileBusy : runningState.busy = true := by decide

theorem witness_OnlyStatusIsReadableWhileBusy :
    runningState.busy = true ∧ ¬ (Region.reg = .reg ∧ (2 : Word) = 1) ∧ ¬ (Region.data = .reg ∧ (1 : Word) = 1) := by
  decide

theorem witness_HostReadsHaveNoSideEffects : cipherState.busy = false := by decide

theorem witness_OperandRegisterWritesAreRangeChecked :
    cipherState.busy = false ∧ (machine [0x01] [0x02] 128 128 []).InRange := by decide

theorem witness_ReservedAndReadOnlyRegistersIgnoreWrites :
    ((6 : Word) = 1 ∨ 6 ≤ (6 : Word).toNat) ∧ 12 ≤ (12 : Word).toNat ∧ cipherState.busy = false := by decide

theorem witness_RegisterMapReads :
    extractState.busy = false ∧ extractState.klen < 2 ^ 32 ∧ extractState.dlen < 2 ^ 32 ∧
    extractState.width < 2 ^ 32 ∧ extractState.height < 2 ^ 32 ∧ extractState.locIdx < 2 ^ 32 ∧
    extractState.byteIdx < 2 ^ 32 ∧ extractState.pixIdx < 2 ^ 32 := by decide

theorem witness_BufferWritesReadBack :
    cipherState.busy = false ∧ (255 : Word).toNat < cipherState.cfg.kmax ∧
    (4095 : Word).toNat < cipherState.cfg.dmax ∧ (16383 : Word).toNat < cipherState.cfg.pmax := by decide

theorem witness_AccessesBeyondARegionAreHarmless :
    cipherState.busy = false ∧ cipherState.cfg.kmax ≤ (256 : Word).toNat ∧ cipherState.cfg.dmax ≤ (4096 : Word).toNat ∧
    cipherState.cfg.pmax ≤ (16384 : Word).toNat ∧ 12 ≤ (12 : Word).toNat := by decide

theorem witness_BlueUpdateReplacesBitZero :
    ((1 : Byte) = 0 ∨ (1 : Byte) = 1) ∧ (0xFE : Byte).getLsbD 0 = false ∧ (0xFF : Byte).getLsbD 0 = true := by decide

end Sys2Proof.Tests
end

/-! The invariant of every run (00_scope.md R8; 10_state.md R13, R15, R25) is kept by every step: one lemma per
operation of the datapath, per command, per host access and per event. -/

namespace Sys2Proof.Machine

variable {s t : State}

/-! ## The sizes a legal state gives -/

/-- R15: "the grid never exceeds PMAX". -/
theorem gridSize_le_pmax (h : s.InRange) : gridSize s ≤ s.cfg.pmax := by
  obtain ⟨-, -, -, hwidth, hheight⟩ := h
  exact Nat.mul_le_mul hwidth hheight

/-- R8, R43: the bytes that the grid can carry fit in DATA. -/
theorem gridSize_div_le_dmax (h : s.InRange) : gridSize s / 8 ≤ s.cfg.dmax :=
  (Nat.div_le_div_right (gridSize_le_pmax h)).trans h.1.2.2

/-! ## The status fields -/

theorem accept_inv (w : Word) (h : s.Inv) : (accept w s).Inv := by
  obtain ⟨hrange, hres, hmem, -⟩ := h
  exact ⟨hrange, hres, hmem, by simp⟩

theorem complete_inv (h : s.Inv) : (complete s).Inv := by
  obtain ⟨hrange, hres, hmem, -⟩ := h
  exact ⟨hrange, hres, hmem, by simp⟩

theorem raise_inv (e : Err) (h : s.Inv) : (raise e s).Inv := by
  obtain ⟨hrange, hres, hmem, -⟩ := h
  exact ⟨hrange, hres, hmem, by simp⟩

/-! ## The passes -/

theorem cipherPass_inv (h : s.Inv) : (cipherPass s).Inv := by
  obtain ⟨⟨hlegal, hklen, hdlen, hgrid⟩, hres, ⟨hkey, hdata, hpix⟩, hshake⟩ := h
  rw [cipherPass_frame s]
  exact ⟨⟨hlegal, hklen, hdlen, hgrid⟩, hres, ⟨hkey, cipherPass_dataOk s hdata hdlen, hpix⟩, hshake⟩

theorem appendFrame_inv (h : s.Inv) (hroom : s.dlen + 3 ≤ s.cfg.dmax) : (appendFrame s).Inv := by
  obtain ⟨⟨hlegal, hklen, -, hgrid⟩, hres, ⟨hkey, hdata, hpix⟩, hshake⟩ := h
  rw [appendFrame_frame s]
  exact ⟨⟨hlegal, hklen, hroom, hgrid⟩, hres, ⟨hkey, appendFrame_dataOk s hdata hroom, hpix⟩, hshake⟩

/-- R13: a found LOCIDX is below DLEN, and the 0 of R90 is below DMAX since R8 gives DMAX at least 3. -/
theorem locateCut_locIdx_lt_dmax (h : s.InRange) : (locateCut s).locIdx < s.cfg.dmax := by
  obtain ⟨⟨-, hdmax, -⟩, -, hdlen, -⟩ := h
  cases hfound : locateIn s with
  | none => rw [locateCut_notFound hfound]; dsimp only; omega
  | some i =>
    obtain ⟨-, hi, -⟩ := (locateIn_eq_some s i).1 hfound
    rw [locateCut_found hfound]; dsimp only; omega

theorem locateCut_inv (h : s.Inv) : (locateCut s).Inv := by
  obtain ⟨hrange, ⟨hbyte, hpixel, -⟩, hmem, hshake⟩ := h
  have hloc := locateCut_locIdx_lt_dmax hrange
  obtain ⟨hlegal, hklen, hdlen, hgrid⟩ := hrange
  obtain ⟨hframe, hcut⟩ := locateCut_frame s
  rw [hframe]
  exact ⟨⟨hlegal, hklen, hcut.trans hdlen, hgrid⟩, ⟨hbyte, hpixel, hloc⟩, hmem, hshake⟩

theorem embedPass_inv (h : s.Inv) (hfit : 8 * s.dlen ≤ gridSize s) : (embedPass s).Inv := by
  obtain ⟨hrange, ⟨-, -, hloc⟩, ⟨hkey, hdata, hpix⟩, hshake⟩ := h
  have hsize := gridSize_le_pmax hrange
  obtain ⟨-, -, hdlen, -⟩ := id hrange
  rw [embedPass_frame hfit]
  exact ⟨hrange, ⟨hdlen, hsize, hloc⟩, ⟨hkey, hdata, embedPass_pixOk hpix hsize⟩, hshake⟩

theorem extractPass_inv (h : s.Inv) : (extractPass s).Inv := by
  obtain ⟨hrange, ⟨-, -, hloc⟩, ⟨hkey, hdata, hpix⟩, hshake⟩ := h
  have hsize := gridSize_le_pmax hrange
  have hbytes := gridSize_div_le_dmax hrange
  obtain ⟨hlegal, hklen, -, hgrid⟩ := hrange
  rw [extractPass_frame s]
  exact ⟨⟨hlegal, hklen, hbytes, hgrid⟩, ⟨hbytes, hsize, hloc⟩,
    ⟨hkey, extractPass_dataOk s hdata hbytes, hpix⟩, hshake⟩

/-- The stages of HIDE in turn: the framed length fits the grid (R121), and what the grid carries fits DATA (R123). -/
theorem hidePass_inv (h : s.Inv) (hfit : (s.dlen + 3) * 8 ≤ gridSize s) : (hidePass s).Inv := by
  have hroom : s.dlen + 3 ≤ s.cfg.dmax := by
    have hbytes := gridSize_div_le_dmax h.1
    omega
  have hcipher := cipherPass_inv h
  have hframed : (appendFrame (cipherPass s)).Inv :=
    appendFrame_inv hcipher (by rw [cipherPass_frame s]; exact hroom)
  refine embedPass_inv hframed ?_
  rw [appendFrame_frame, cipherPass_frame s]
  change 8 * (s.dlen + 3) ≤ gridSize s
  omega

theorem showPass_inv (h : s.Inv) : (showPass s).Inv :=
  cipherPass_inv (locateCut_inv (extractPass_inv h))

/-! ## The commands -/

theorem passOf_inv (i : Instr) (h : s.Inv) (hok : errorOf i s = .none) : (passOf i s).Inv := by
  cases i with
  | xor => exact cipherPass_inv h
  | encrypt => exact cipherPass_inv h
  | decrypt => exact cipherPass_inv h
  | append =>
    have hroom : ¬ s.cfg.dmax < s.dlen + 3 := by simpa [errorOf] using hok
    exact appendFrame_inv h (by omega)
  | locate => exact locateCut_inv h
  | fits => exact h
  | embed =>
    have hfit : ¬ gridSize s < s.dlen * 8 := by simpa [errorOf] using hok
    exact embedPass_inv h (by omega)
  | extract => exact extractPass_inv h
  | hide =>
    have hfit : ¬ gridSize s < (s.dlen + 3) * 8 := fun hlt => by
      simp only [errorOf, if_pos hlt] at hok
      split at hok <;> cases hok
    exact hidePass_inv h (by omega)
  | showMsg => exact showPass_inv h

theorem exec_inv {i : Instr} (h : s.Inv) (hexec : exec i s = .next t) : t.Inv := by
  rcases exec_next hexec with ⟨-, rfl⟩ | ⟨hok, rfl⟩
  · exact raise_inv _ h
  · exact complete_inv (passOf_inv i h hok)

theorem runAccepted_inv (h : s.Inv) (hrun : runAccepted s = .next t) : t.Inv := by
  unfold runAccepted at hrun
  split at hrun
  · exact exec_inv h hrun
  · cases hrun; exact raise_inv _ h

theorem sequencerMove_inv (h : s.Inv) (hmove : sequencerMove s = .next t) : t.Inv := by
  unfold sequencerMove at hmove
  split at hmove
  · exact runAccepted_inv h hmove
  · cases hmove; exact h

/-! ## The host port -/

/-- A write that its range check may drop (R15, R48, R54). -/
theorem checkedWrite_inv {c : Prop} [Decidable c] (hwrite : c → t.Inv) (h : s.Inv) : (if c then t else s).Inv := by
  split
  · next hc => exact hwrite hc
  · exact h

theorem regWrite_inv (idx : Nat) (v : Word) (h : s.Inv) : (regWrite s idx v).Inv := by
  obtain ⟨⟨hlegal, hklen, hdlen, hwidth, hheight⟩, hrest⟩ := id h
  unfold regWrite
  split
  · exact accept_inv v h
  · exact checkedWrite_inv (fun hv => ⟨⟨hlegal, hv, hdlen, hwidth, hheight⟩, hrest⟩) h
  · exact checkedWrite_inv (fun hv => ⟨⟨hlegal, hklen, hv, hwidth, hheight⟩, hrest⟩) h
  · exact checkedWrite_inv (fun hv => ⟨⟨hlegal, hklen, hdlen, hv, hheight⟩, hrest⟩) h
  · exact checkedWrite_inv (fun hv => ⟨⟨hlegal, hklen, hdlen, hwidth, hv⟩, hrest⟩) h
  · exact h

theorem elementWrite_inv (sel : Region) (idx : Nat) (v : Word) (h : s.Inv) : (elementWrite s sel idx v).Inv := by
  obtain ⟨hrange, hres, ⟨hkey, hdata, hpix⟩, hshake⟩ := id h
  cases sel with
  | reg => exact regWrite_inv idx v h
  | key => exact checkedWrite_inv (fun hi => ⟨hrange, hres, ⟨memWrite_ok _ hkey hi, hdata, hpix⟩, hshake⟩) h
  | data => exact checkedWrite_inv (fun hi => ⟨hrange, hres, ⟨hkey, memWrite_ok _ hdata hi, hpix⟩, hshake⟩) h
  | pix => exact checkedWrite_inv (fun hi => ⟨hrange, hres, ⟨hkey, hdata, memWrite_ok _ hpix hi⟩, hshake⟩) h

theorem hostWrite_inv (sel : Region) (idx v : Word) (h : s.Inv) : (hostWrite sel idx v s).Inv := by
  unfold hostWrite
  split
  · exact h
  · exact elementWrite_inv sel idx.toNat v h

theorem hostRead_inv (sel : Region) (idx : Word) (h : s.Inv) : (hostRead sel idx s).Inv := by
  rw [hostRead_frame]; exact h

theorem hostAccess_inv (a : Access) (h : s.Inv) : (hostAccess a s).Inv := by
  cases a with
  | write sel idx v => exact hostWrite_inv sel idx v h
  | read sel idx => exact hostRead_inv sel idx h

/-! ## The events -/

theorem pollStatus_inv (h : s.Inv) : (pollStatus s).Inv := by
  rw [pollStatus_eq]; exact h

/-- R34, R37: a memory with nothing listed is canonical and inside every buffer. -/
theorem emptyMemory_ok {α : Type} (cap : Nat) : Memory.wf ([] : Memory α) ∧ Memory.within ([] : Memory α) cap :=
  ⟨.nil, List.forall_mem_nil _⟩

theorem resetFor_inv {p : Config.Params} (hlegal : p.legal) : (State.resetFor p).Inv := by
  obtain ⟨-, hdmax, -⟩ := id hlegal
  have hloc : 0 < p.dmax := by omega
  exact ⟨⟨hlegal, by simp [State.resetFor]⟩, ⟨Nat.zero_le _, Nat.zero_le _, hloc⟩,
    ⟨emptyMemory_ok _, emptyMemory_ok _, emptyMemory_ok _⟩, by simp [State.resetFor]⟩

/-- The event reset gives the state after reset of the same block, but for its schedule and counters (R157). -/
theorem takeReset_inv (h : s.Inv) : (takeReset s).Inv := by
  obtain ⟨⟨hlegal, -⟩, -⟩ := h
  exact resetFor_inv hlegal

theorem takeEvent_inv {e : Event} (h : s.Inv) (htake : takeEvent e s = .next t) : t.Inv := by
  cases e with
  | access a => cases htake; exact hostAccess_inv a h
  | sequencer => exact sequencerMove_inv h htake
  | reset => cases htake; exact takeReset_inv h
  | waitDone => cases htake; exact pollStatus_inv h

/-- Settles O45: the schedule is no part of the invariant, so a step is the sequencer's move or the event that comes
next, and each keeps it. -/
theorem everyStepKeepsTheInvariant : Obligations.EveryStepKeepsTheInvariant := by
  intro s t h hstep
  cases hs : s.schedule with
  | nil => rw [step, hs] at hstep; exact sequencerMove_inv h hstep
  | cons e rest => rw [step_cons hs] at hstep; exact takeEvent_inv (s := { s with schedule := rest }) h hstep

end Sys2Proof.Machine

/-! What a command can change besides the status fields (10_state.md R29, R33): the frames of the passes, for every
state, and the two statements on who writes what. -/

namespace Sys2Proof.Machine

variable {i : Instr} {s t : State}

/-! ## The passes that write PIX, whether or not the payload fits -/

theorem embedPass_changes (s : State) : ∃ (px : Memory Pixel) (n : Nat) (k : BitVec 3),
    embedPass s = { s with pix := px, byteIdx := n, bitPos := k, pixIdx := gridSize s } := by
  obtain ⟨px, hloop, -⟩ := embedLoop_spec s (gridSize s)
  exact ⟨px, _, _, hloop⟩

theorem hidePass_changes (s : State) : ∃ (d : Memory Byte) (px : Memory Pixel) (n : Nat) (k : BitVec 3),
    hidePass s = { s with data := d, pix := px, dlen := s.dlen + 3, byteIdx := n, bitPos := k,
                          pixIdx := gridSize s } := by
  obtain ⟨px, n, k, hembed⟩ := embedPass_changes (appendFrame (cipherPass s))
  rw [hidePass, hembed, appendFrame_frame, cipherPass_frame]
  exact ⟨_, px, n, k, rfl⟩

/-! ## What no command writes -/

/-- What belongs to the host, to the port and to the model's own bookkeeping (R29, logs 2, 3, 7, 11). -/
def hostOwned (s : State) : Memory Byte × Nat × Nat × Nat × Word × Word × Config.Params × List Event × Nat × Nat :=
  (s.key, s.klen, s.width, s.height, s.lastCmd, s.hRData, s.cfg, s.schedule, s.epoch, s.draws)

theorem hostOwned_passOf (i : Instr) (s : State) : hostOwned (passOf i s) = hostOwned s := by
  cases i with
  | xor | encrypt | decrypt => rw [passOf, cipherPass_frame]; rfl
  | append => rfl
  | locate => rw [passOf, (locateCut_frame s).1]; rfl
  | fits => rfl
  | embed => obtain ⟨_, _, _, hembed⟩ := embedPass_changes s; rw [passOf, hembed]; rfl
  | extract => rw [passOf, extractPass_frame]; rfl
  | hide => obtain ⟨_, _, _, _, hhide⟩ := hidePass_changes s; rw [passOf, hhide]; rfl
  | showMsg => rw [passOf, showPass_frame]; rfl

theorem hostOwned_exec (hexec : exec i s = .next t) : hostOwned t = hostOwned s := by
  rcases exec_next hexec with ⟨-, rfl⟩ | ⟨-, rfl⟩
  · rfl
  · exact hostOwned_passOf i s

/-- Settles O39: an error changes the status fields only, and no pass writes what the host owns. -/
theorem commandsNeverWriteTheHostsOperands : Obligations.CommandsNeverWriteTheHostsOperands := by
  intro i s t hexec
  simpa only [hostOwned, Prod.mk.injEq] using hostOwned_exec hexec

/-! ## What each command leaves to the others -/

/-- Settles O41: an error changes the status fields only, and the frame of each pass lists what its row of the table
of R33 allows. -/
theorem commandsWriteOnlyTheirOwnState : Obligations.CommandsWriteOnlyTheirOwnState := by
  intro i s t hexec
  rcases exec_next hexec with ⟨-, rfl⟩ | ⟨-, rfl⟩
  · simp [sameKey, sameData, samePix]
  · cases i with
    | xor | encrypt | decrypt =>
      rw [passOf, cipherPass_frame]
      simp [sameKey, samePix, readKey, readPix]
    | append =>
      rw [passOf, appendFrame_frame]
      simp [sameKey, samePix, readKey, readPix]
    | locate =>
      rw [passOf, (locateCut_frame s).1]
      simp [sameKey, sameData, samePix, readKey, readData, readPix]
    | fits => simp [passOf, sameKey, sameData, samePix, readKey, readData, readPix]
    | embed =>
      obtain ⟨_, _, _, hembed⟩ := embedPass_changes s
      rw [passOf, hembed]
      simp [sameKey, sameData, readKey, readData]
    | extract =>
      rw [passOf, extractPass_frame]
      simp [sameKey, samePix, readKey, readPix]
    | hide =>
      obtain ⟨_, _, _, _, hhide⟩ := hidePass_changes s
      rw [passOf, hhide]
      simp [sameKey, readKey]
    | showMsg =>
      rw [passOf, showPass_frame]
      simp [sameKey, samePix, readKey, readPix]

end Sys2Proof.Machine

/-! Every step keeps the result fields in agreement (10_state.md R23; 30_encoding.md R60; 41_terminator_codec.md R90;
60_exceptions.md R143): what a step can do, said once, and one lemma per operation. -/

namespace Sys2Proof.Machine

variable {i : Instr} {s t : State}

/-! ## What a step can do -/

/-- The moves of the block from `s`, the event that causes the move already taken from the schedule: the idle block
lets time pass (R158), a running command completes or is illegal (R60, R67), or the environment acts (R44, R70, R157). -/
inductive Move (s : State) : State → Prop where
  | idle : s.busy = false → Move s s
  | command (i : Instr) (t : State) : s.busy = true → decode (fetchWord s) = .ok i → exec i s = .next t → Move s t
  | illegal (e : DecodeError) : s.busy = true → decode (fetchWord s) = .error e → Move s (raise .illegal s)
  | access (a : Access) : Move s (hostAccess a s)
  | reset : Move s (takeReset s)
  | poll : Move s (pollStatus s)

theorem sequencerMove_move (h : sequencerMove s = .next t) : Move s t := by
  unfold sequencerMove at h
  split at h
  · next hbusy =>
    unfold runAccepted at h
    split at h
    · next i hdec => exact .command i t hbusy hdec h
    · next e hdec => cases h; exact .illegal e hbusy hdec
  · next hidle => cases h; exact .idle (by simpa using hidle)

theorem takeEvent_move {e : Event} (h : takeEvent e s = .next t) : Move s t := by
  cases e with
  | access a => cases h; exact .access a
  | sequencer => exact sequencerMove_move h
  | reset => cases h; exact .reset
  | waitDone => cases h; exact .poll

theorem step_move (h : step s = .next t) : ∃ rest, Move { s with schedule := rest } t := by
  cases hs : s.schedule with
  | nil => rw [step, hs] at h; exact ⟨s.schedule, sequencerMove_move h⟩
  | cons e rest => rw [step_cons hs] at h; exact ⟨rest, takeEvent_move h⟩

/-! ## The commands -/

/-- A command that answers has completed (R60, R143). -/
theorem exec_completes (hexec : exec i s = .next t) : t.busy = false ∧ t.done = true := by
  rcases exec_next hexec with ⟨-, rfl⟩ | ⟨-, rfl⟩ <;> exact ⟨rfl, rfl⟩

/-- The half of `State.Coherent` that LOCATE decides: LOCIDX is the found index, or 0 (R23, R88, R90). -/
abbrev State.FoundAgrees (s : State) : Prop := (s.found = false → s.locIdx = 0) ∧ (s.found = true → 2 ≤ s.locIdx)

theorem locateCut_foundAgrees (s : State) : (locateCut s).FoundAgrees := by
  cases hfound : locateIn s with
  | none => simp [locateCut_notFound hfound, State.FoundAgrees]
  | some i => simpa [locateCut_found hfound, State.FoundAgrees] using ((locateIn_eq_some s i).1 hfound).1

theorem showPass_foundAgrees (s : State) : (showPass s).FoundAgrees := by
  rw [showPass_frame]; exact locateCut_foundAgrees (extractPass s)

/-- LOCATE and SHOW set the pair anew; every other command leaves it. -/
theorem exec_foundAgrees (h : s.FoundAgrees) (hexec : exec i s = .next t) : t.FoundAgrees := by
  by_cases hlocate : i = .locate
  · subst hlocate
    obtain ⟨-, rfl⟩ := execLocate_next hexec
    exact locateCut_foundAgrees s
  by_cases hshow : i = .showMsg
  · subst hshow
    rcases execShow_next hexec with ⟨-, rfl⟩ | ⟨-, -, rfl⟩
    · exact h
    · exact showPass_foundAgrees s
  · obtain ⟨hkept, -⟩ := commandsWriteOnlyTheirOwnState i s t hexec
    obtain ⟨hfound, hloc⟩ := hkept hlocate hshow
    rw [State.FoundAgrees, hfound, hloc]
    exact h

/-- A completed block agrees when FOUND and LOCIDX do: whatever the error, DONE is 1. -/
theorem coherent_of_completed (hbusy : t.busy = false) (hdone : t.done = true) (h : t.FoundAgrees) : t.Coherent :=
  ⟨by simp [hbusy], fun _ => hdone, h⟩

theorem exec_coherent (h : s.Coherent) (hexec : exec i s = .next t) : t.Coherent := by
  obtain ⟨-, -, hfound⟩ := h
  obtain ⟨hbusy, hdone⟩ := exec_completes hexec
  exact coherent_of_completed hbusy hdone (exec_foundAgrees hfound hexec)

theorem raise_coherent (e : Err) (h : s.Coherent) : (raise e s).Coherent := by
  obtain ⟨-, -, hfound⟩ := h
  exact coherent_of_completed rfl rfl hfound

/-! ## The host port -/

theorem accept_coherent (w : Word) (h : s.Coherent) : (accept w s).Coherent := by
  obtain ⟨-, -, hfound⟩ := h
  exact ⟨fun _ => rfl, by simp, hfound⟩

/-- A write that its range check may drop (R15, R48, R54). -/
theorem checkedWrite_coherent {c : Prop} [Decidable c] (hwrite : t.Coherent) (h : s.Coherent) :
    (if c then t else s).Coherent := by
  split
  · exact hwrite
  · exact h

theorem regWrite_coherent (idx : Nat) (v : Word) (h : s.Coherent) : (regWrite s idx v).Coherent := by
  unfold regWrite
  split
  · exact accept_coherent v h
  · exact checkedWrite_coherent h h
  · exact checkedWrite_coherent h h
  · exact checkedWrite_coherent h h
  · exact checkedWrite_coherent h h
  · exact h

theorem elementWrite_coherent (sel : Region) (idx : Nat) (v : Word) (h : s.Coherent) :
    (elementWrite s sel idx v).Coherent := by
  cases sel with
  | reg => exact regWrite_coherent idx v h
  | key => exact checkedWrite_coherent h h
  | data => exact checkedWrite_coherent h h
  | pix => exact checkedWrite_coherent h h

theorem hostAccess_coherent (a : Access) (h : s.Coherent) : (hostAccess a s).Coherent := by
  cases a with
  | write sel idx v => exact checkedWrite_coherent h (elementWrite_coherent sel idx.toNat v h)
  | read sel idx => rw [hostAccess, hostRead_frame]; exact h

/-! ## Reset and the step -/

theorem resetFor_coherent (p : Config.Params) : (State.resetFor p).Coherent := by
  simp [State.resetFor, State.Coherent]

/-- Settles O47: an event taken from the schedule changes no result field, and each move keeps their agreement. -/
theorem everyStepKeepsTheResultsCoherent : Obligations.EveryStepKeepsTheResultsCoherent := by
  intro s t h hstep
  obtain ⟨rest, hmove⟩ := step_move hstep
  have hs : ({ s with schedule := rest } : State).Coherent := h
  cases hmove with
  | idle => exact hs
  | command i _ _ _ hexec => exact exec_coherent hs hexec
  | illegal => exact raise_coherent .illegal hs
  | access a => exact hostAccess_coherent a hs
  | reset => exact resetFor_coherent s.cfg
  | poll => rw [pollStatus_eq]; exact hs

end Sys2Proof.Machine

/-! The state after reset, the register map of the idle host port and the layout of STATUS (10_state.md R15, R24, R25,
R27, R28, R34; 60_exceptions.md R135). -/

namespace Sys2Proof.Machine

variable {s : State}

/-! ## Reset -/

/-- An element that nothing has written reads as its free value (U1). -/
@[simp] theorem elementAt_nil {α : Type} (free : Nat → α) (i : Nat) : elementAt free [] i = free i := rfl

/-- Settles O1: the registers as R34 lists them, and no element of a buffer listed. -/
theorem resetLeavesTheTableValues : Obligations.ResetLeavesTheTableValues := by
  intro p
  refine ⟨rfl, rfl, rfl, rfl, rfl, rfl, rfl, rfl, rfl, rfl, rfl, rfl, rfl, rfl, rfl, ?key, ?data, ?pix⟩
  case key => exact elementAt_nil (Config.unwrittenKey 0)
  case data => exact elementAt_nil (Config.unwrittenData 0)
  case pix => exact elementAt_nil (Config.unwrittenPix 0)

/-- Settles O48. -/
theorem resetMeetsTheInvariant : Obligations.ResetMeetsTheInvariant :=
  fun p hlegal => ⟨resetFor_inv hlegal, resetFor_coherent p⟩

/-! ## The idle port -/

theorem hostWrite_idle (hidle : s.busy = false) (sel : Region) (idx v : Word) :
    hostWrite sel idx v s = elementWrite s sel idx.toNat v := by simp [hostWrite, hidle]

theorem hostRead_idle (hidle : s.busy = false) (sel : Region) (idx : Word) :
    hostRead sel idx s = { s with hRData := elementRead s sel idx.toNat } := by simp [hostRead, hidle]

/-- Settles O53: the idle port writes the register, and R15's bound on the grid is the product of the two ranges. -/
theorem operandRegisterWritesAreRangeChecked : Obligations.OperandRegisterWritesAreRangeChecked := by
  intro s v hidle
  simp only [hostWrite_idle hidle]
  exact ⟨rfl, rfl, rfl, rfl, gridSize_le_pmax⟩

/-- R28: STATUS, LOCIDX to LASTCMD and the reserved indices ignore a write. -/
theorem regWrite_ignored {idx : Nat} (h : idx = 1 ∨ 6 ≤ idx) (v : Word) : regWrite s idx v = s := by
  unfold regWrite
  split
  case h_6 => rfl
  all_goals omega

theorem regRead_reserved {idx : Nat} (h : 12 ≤ idx) : regRead s idx = 0 := by
  unfold regRead
  split
  case h_12 => rfl
  all_goals omega

/-- Settles O54: a busy port ignores every write, an idle one passes it to a register that ignores it. -/
theorem reservedAndReadOnlyRegistersIgnoreWrites : Obligations.ReservedAndReadOnlyRegistersIgnoreWrites := by
  intro s idx v
  constructor
  · intro hidx
    have hignored : idx.toNat = 1 ∨ 6 ≤ idx.toNat := hidx.imp_left fun h => by rw [h]; rfl
    unfold hostWrite
    split
    · rfl
    · exact regWrite_ignored hignored v
  · intro hreserved hidle
    rw [hostRead_idle hidle, elementRead, regRead_reserved hreserved]

/-- R27: the word of a register that fits in 32 bits is its value. -/
theorem toNat_regWord (idx : Nat) {v : Nat} (h : v < 2 ^ 32) : (regWord idx v).toNat = v := by
  rw [regWord, if_pos h, BitVec.toNat_ofNat, Nat.mod_eq_of_lt h]

/-- Settles O55: the idle port answers the register's word. -/
theorem registerMapReads : Obligations.RegisterMapReads := by
  intro s hidle hklen hdlen hwidth hheight hloc hbyte hpixel
  have hbit : (s.bitPos.zeroExtend 32).toNat = s.bitPos.toNat := BitVec.toNat_setWidth_of_le (by decide)
  have hacc : (wordOfByte s.acc).toNat = s.acc.toNat := BitVec.toNat_setWidth_of_le (by decide)
  simp only [hostRead_idle hidle]
  exact ⟨rfl, rfl, toNat_regWord 2 hklen, toNat_regWord 3 hdlen, toNat_regWord 4 hwidth, toNat_regWord 5 hheight,
    toNat_regWord 6 hloc, toNat_regWord 7 hbyte, hbit, hacc, toNat_regWord 10 hpixel, rfl⟩

/-! ## STATUS -/

/-- Bit `i` of STATUS: the four flags, then the bits of the error code (R25). -/
theorem getLsbD_statusWord (s : State) (i : Nat) :
    (statusWord s).getLsbD i =
      match i with
      | 0 => s.busy
      | 1 => s.done
      | 2 => s.found
      | 3 => s.fits
      | k + 4 => (errCode s.err).getLsbD k := by
  unfold statusWord
  change BitVec.getLsbD (w := 25 + 3 + 1 + 1 + 1 + 1) _ i = _
  simp only [BitVec.getLsbD_append, BitVec.getLsbD_ofBool]
  rcases i with _ | _ | _ | _ | k
  · simp
  · simp
  · simp
  · simp
  · simpa +arith using fun hbit => Nat.le_of_lt_succ (BitVec.lt_of_getLsbD hbit)

/-- Settles O56: bits 3 and below are the flags, the three bits of the code follow, and a code has no bit 3 or above. -/
theorem statusPacksTheFlags : Obligations.StatusPacksTheFlags := by
  intro s
  refine ⟨getLsbD_statusWord s 0, getLsbD_statusWord s 1, getLsbD_statusWord s 2, getLsbD_statusWord s 3, ?code, ?zero,
    rfl, rfl, rfl, rfl, rfl⟩
  case code =>
    refine BitVec.eq_of_getLsbD_eq fun i hi => ?_
    rw [BitVec.getLsbD_extractLsb', Nat.add_comm, getLsbD_statusWord]
    simp [hi]
  case zero =>
    refine BitVec.eq_of_getLsbD_eq fun i hi => ?_
    rw [BitVec.getLsbD_extractLsb', show 7 + i = (3 + i) + 4 by omega, getLsbD_statusWord]
    simp

end Sys2Proof.Machine

/-! What a command indexes in the buffers (20_memory.md R41, R43; 10_state.md R15): the extents of each command, the
one equation of `exec` they give, and the statements on faults, ranges and the shape of the grid. -/

namespace Sys2Proof.Machine

variable {i : Instr} {s t : State}

/-! ## A command is its checks, its extents and its pass -/

/-- How many elements of each buffer a command indexes once its checks pass (R43). -/
structure Extents where
  key : Nat
  data : Nat
  pix : Nat

/-- The extents of R43 for each command. APPEND's three bytes are what its own check has tested (R85). -/
def extentsOf (i : Instr) (s : State) : Extents :=
  match i with
  | .xor | .encrypt | .decrypt => ⟨s.klen, s.dlen, 0⟩
  | .append => ⟨0, s.dlen + 3, 0⟩
  | .locate => ⟨0, s.dlen, 0⟩
  | .fits => ⟨0, 0, 0⟩
  | .embed => ⟨0, s.dlen, gridSize s⟩
  | .extract => ⟨0, gridSize s / 8, gridSize s⟩
  | .hide => ⟨s.klen, s.dlen + 3, gridSize s⟩
  | .showMsg => ⟨s.klen, gridSize s / 8, gridSize s⟩

/-- The elements that command `i` indexes from `s` exist (R43). -/
abbrev extentsFit (i : Instr) (s : State) : Prop :=
  withinBuffers s (extentsOf i s).key (extentsOf i s).data (extentsOf i s).pix

/-- Every command from every state: its error, or its pass when the extents fit, or the fault of log 10. -/
theorem exec_eq (i : Instr) (s : State) :
    exec i s = if errorOf i s = .none then
        guarded s (extentsOf i s).key (extentsOf i s).data (extentsOf i s).pix (complete (passOf i s))
      else .next (raise (errorOf i s) s) := by
  cases i with
  | xor | encrypt | decrypt =>
    change runCipher s = _
    by_cases hkey : s.klen = 0 <;> simp [runCipher, errorOf, extentsOf, passOf, hkey]
  | append =>
    change execAppend s = _
    by_cases hroom : s.cfg.dmax < s.dlen + 3
    · simp [execAppend, errorOf, hroom]
    · have hfit : withinBuffers s 0 (s.dlen + 3) 0 := ⟨Nat.zero_le _, Nat.le_of_not_lt hroom, Nat.zero_le _⟩
      simp [execAppend, errorOf, extentsOf, passOf, hroom, guarded_eq hfit]
  | locate => rfl
  | fits =>
    have hfit : withinBuffers s 0 0 0 := ⟨Nat.zero_le _, Nat.zero_le _, Nat.zero_le _⟩
    exact (guarded_eq hfit).symm
  | embed =>
    change execEmbed s = _
    by_cases hfit : gridSize s < s.dlen * 8
    · simp [execEmbed, fitsIn, errorOf, hfit]
    · simp [execEmbed, fitsIn, errorOf, extentsOf, passOf, hfit, Nat.le_of_not_lt hfit]
  | extract => rfl
  | hide =>
    change execHide s = _
    by_cases hkey : s.klen = 0
    · simp [execHide, errorOf, hkey]
    by_cases hfit : gridSize s < (s.dlen + 3) * 8
    · simp [execHide, fitsIn, errorOf, hkey, hfit]
    · simp [execHide, fitsIn, errorOf, extentsOf, passOf, hkey, hfit, Nat.le_of_not_lt hfit]
  | showMsg =>
    change execShow s = _
    by_cases hkey : s.klen = 0 <;> simp [execShow, errorOf, extentsOf, passOf, hkey]

theorem exec_of_error (herr : errorOf i s ≠ .none) : exec i s = .next (raise (errorOf i s) s) := by
  rw [exec_eq, if_neg herr]

theorem exec_of_fit (hok : errorOf i s = .none) (hfit : extentsFit i s) : exec i s = .next (complete (passOf i s)) := by
  rw [exec_eq, if_pos hok, guarded_eq hfit]

theorem exec_of_not_fit (hok : errorOf i s = .none) (hfit : ¬ extentsFit i s) :
    exec i s = .fault .elementOutsideBuffer := by
  rw [exec_eq, if_pos hok, guarded, if_neg hfit]

/-- The three outcomes of a command. -/
theorem exec_cases (i : Instr) (s : State) :
    (errorOf i s ≠ .none ∧ exec i s = .next (raise (errorOf i s) s)) ∨
      (errorOf i s = .none ∧ extentsFit i s ∧ exec i s = .next (complete (passOf i s))) ∨
      (errorOf i s = .none ∧ ¬ extentsFit i s ∧ exec i s = .fault .elementOutsideBuffer) := by
  by_cases hok : errorOf i s = .none
  · by_cases hfit : extentsFit i s
    · exact .inr (.inl ⟨hok, hfit, exec_of_fit hok hfit⟩)
    · exact .inr (.inr ⟨hok, hfit, exec_of_not_fit hok hfit⟩)
  · exact .inl ⟨hok, exec_of_error hok⟩

/-! ## The checks that a command passes -/

theorem errorOf_append_eq_none : errorOf .append s = .none ↔ s.dlen + 3 ≤ s.cfg.dmax := by simp [errorOf]

theorem errorOf_embed_eq_none : errorOf .embed s = .none ↔ s.dlen * 8 ≤ gridSize s := by simp [errorOf]

theorem errorOf_hide_eq_none : errorOf .hide s = .none ↔ s.klen ≠ 0 ∧ (s.dlen + 3) * 8 ≤ gridSize s := by
  by_cases hkey : s.klen = 0 <;> simp [errorOf, hkey]

/-! ## Faults -/

theorem exec_eq_fault_iff :
    exec i s = .fault .elementOutsideBuffer ↔ errorOf i s = .none ∧ ¬ extentsFit i s := by
  rcases exec_cases i s with ⟨herr, hexec⟩ | ⟨hok, hfit, hexec⟩ | ⟨hok, hfit, hexec⟩
  · simp [hexec, herr]
  · simp [hexec, hfit]
  · simp [hexec, hok, hfit]

theorem exec_ne_refused (r : Refusal) : exec i s ≠ .refused r := by
  rcases exec_cases i s with ⟨-, hexec⟩ | ⟨-, -, hexec⟩ | ⟨-, -, hexec⟩ <;> simp [hexec]

theorem not_withinBuffers_iff (s : State) (k d p : Nat) :
    ¬ withinBuffers s k d p ↔ s.cfg.kmax < k ∨ s.cfg.dmax < d ∨ s.cfg.pmax < p := by
  simp only [withinBuffers, not_and_or, Nat.not_le]

/-- Settles O44: a command faults when its checks pass and its extents do not fit; per command, that is its line. -/
theorem commandsFaultExactlyOutsideTheBuffers : Obligations.CommandsFaultExactlyOutsideTheBuffers := by
  intro i s
  refine ⟨?_, fun r => exec_ne_refused r⟩
  rw [exec_eq_fault_iff, extentsFit, not_withinBuffers_iff]
  cases i with
  | xor | encrypt | decrypt => simp [errorOf, extentsOf, isCipher]
  | append => simp [errorOf_append_eq_none, extentsOf, isCipher]
  | locate => simp [errorOf, extentsOf, isCipher]
  | fits => simp [errorOf, extentsOf, isCipher]
  | embed => simp [errorOf_embed_eq_none, extentsOf, isCipher, gridSize]
  | extract => simp [errorOf, extentsOf, isCipher, gridSize]
  | hide => simp [errorOf_hide_eq_none, extentsOf, isCipher, gridSize, and_assoc]
  | showMsg => simp [errorOf, extentsOf, isCipher, gridSize]

/-! ## From a legal state -/

/-- R43: in range, a command whose checks pass finds every element it indexes. -/
theorem extentsFit_of_inRange (h : s.InRange) (hok : errorOf i s = .none) : extentsFit i s := by
  have hgrid := gridSize_le_pmax h
  have hbytes := gridSize_div_le_dmax h
  obtain ⟨-, hklen, hdlen, -⟩ := h
  cases i with
  | xor | encrypt | decrypt => exact ⟨hklen, hdlen, Nat.zero_le _⟩
  | append => exact ⟨Nat.zero_le _, errorOf_append_eq_none.1 hok, Nat.zero_le _⟩
  | locate => exact ⟨Nat.zero_le _, hdlen, Nat.zero_le _⟩
  | fits => exact ⟨Nat.zero_le _, Nat.zero_le _, Nat.zero_le _⟩
  | embed => exact ⟨Nat.zero_le _, hdlen, hgrid⟩
  | extract => exact ⟨Nat.zero_le _, hbytes, hgrid⟩
  | hide =>
    obtain ⟨-, hfit⟩ := errorOf_hide_eq_none.1 hok
    have hframed : s.dlen + 3 ≤ s.cfg.dmax := by omega
    exact ⟨hklen, hframed, hgrid⟩
  | showMsg => exact ⟨hklen, hbytes, hgrid⟩

/-- A pass leaves in DLEN no more than it found there or than it indexed of DATA. -/
theorem passOf_dlen_le (i : Instr) (s : State) : (passOf i s).dlen ≤ max s.dlen (extentsOf i s).data := by
  cases i with
  | xor | encrypt | decrypt => rw [passOf, cipherPass_frame]; exact le_max_left _ _
  | append => exact le_max_right _ _
  | locate => exact (locateCut_frame s).2.trans (le_max_left _ _)
  | fits => exact le_max_left _ _
  | embed => obtain ⟨_, _, _, hembed⟩ := embedPass_changes s; rw [passOf, hembed]; exact le_max_left _ _
  | extract => rw [passOf, extractPass_frame]; exact le_max_right _ _
  | hide => obtain ⟨_, _, _, _, hhide⟩ := hidePass_changes s; rw [passOf, hhide]; exact le_max_right _ _
  | showMsg =>
    have hcut := (locateCut_frame (extractPass s)).2
    have hbytes : (extractPass s).dlen = gridSize s / 8 := by rw [extractPass_frame]
    rw [passOf, showPass_frame]
    exact (hcut.trans_eq hbytes).trans (le_max_right _ _)

theorem passOf_inRange (h : s.InRange) (hfit : extentsFit i s) : (passOf i s).InRange := by
  have howned := hostOwned_passOf i s
  simp only [hostOwned, Prod.mk.injEq] at howned
  obtain ⟨-, hklen, hwidth, hheight, -, -, hcfg, -⟩ := howned
  obtain ⟨hlegal, hkey, hdlen, hgrid⟩ := h
  obtain ⟨-, hdata, -⟩ := hfit
  rw [State.InRange, hcfg, hklen, hwidth, hheight]
  exact ⟨hlegal, hkey, (passOf_dlen_le i s).trans (max_le hdlen hdata), hgrid⟩

/-- Settles O43: a command reports its error, or its extents fit and its pass stays in range. -/
theorem noCommandLeavesItsBuffers : Obligations.NoCommandLeavesItsBuffers := by
  intro i s h
  by_cases hok : errorOf i s = .none
  · have hfit := extentsFit_of_inRange h hok
    exact ⟨_, exec_of_fit hok hfit, passOf_inRange h hfit, rfl, rfl⟩
  · exact ⟨_, exec_of_error hok, h, rfl, rfl⟩

/-! ## The shape of the grid -/

section
variable {w h : Nat} (hN : w * h = gridSize s)
include hN

theorem gridSize_withShape : gridSize (withShape w h s) = gridSize s := hN

theorem errorOf_withShape (i : Instr) : errorOf i (withShape w h s) = errorOf i s := by
  cases i <;> simp only [errorOf, gridSize_withShape hN] <;> rfl

theorem extentsOf_withShape (i : Instr) : extentsOf i (withShape w h s) = extentsOf i s := by
  cases i <;> simp only [extentsOf, gridSize_withShape hN] <;> rfl

/-- The stages of HIDE before EMBED write neither WIDTH nor HEIGHT. -/
theorem hidePass_withShape : hidePass (withShape w h s) = withShape w h (hidePass s) := by
  have hframed : w * h = gridSize (appendFrame (cipherPass s)) := by
    rw [appendFrame_frame, cipherPass_frame]; exact hN
  rw [hidePass, cipherPass_withShape, appendFrame_withShape, embedPass_withShape _ _ _ hframed, hidePass]

theorem showPass_withShape : showPass (withShape w h s) = withShape w h (showPass s) := by
  rw [showPass, extractPass_withShape s w h hN, locateCut_withShape, cipherPass_withShape, showPass]

/-- Every pass reads the grid's shape only through its product (R41). -/
theorem passOf_withShape (i : Instr) : passOf i (withShape w h s) = withShape w h (passOf i s) := by
  cases i with
  | xor | encrypt | decrypt => exact cipherPass_withShape s w h
  | append => exact appendFrame_withShape s w h
  | locate => exact locateCut_withShape s w h
  | fits => simp only [passOf, gridSize_withShape hN]; rfl
  | embed => exact embedPass_withShape s w h hN
  | extract => exact extractPass_withShape s w h hN
  | hide => exact hidePass_withShape hN
  | showMsg => exact showPass_withShape hN

theorem exec_withShape (hexec : exec i s = .next t) : exec i (withShape w h s) = .next (withShape w h t) := by
  have herr := errorOf_withShape hN i
  rcases exec_cases i s with ⟨hbad, hnext⟩ | ⟨hok, hfit, hnext⟩ | ⟨-, -, hfault⟩
  · obtain rfl : raise (errorOf i s) s = t := by simpa [hnext] using hexec
    rw [exec_of_error (herr ▸ hbad), herr]; rfl
  · obtain rfl : complete (passOf i s) = t := by simpa [hnext] using hexec
    have hfit' : extentsFit i (withShape w h s) := by rw [extentsFit, extentsOf_withShape hN]; exact hfit
    rw [exec_of_fit (herr ▸ hok) hfit', passOf_withShape hN]; rfl
  · simp [hfault] at hexec

end

/-- Settles O42. -/
theorem commandsDependOnTheGridsProductOnly : Obligations.CommandsDependOnTheGridsProductOnly :=
  fun _ _ _ _ _ hN hexec => exec_withShape hN hexec

end Sys2Proof.Machine

/-! The channel values that no command writes (20_memory.md R42; 43_lsb_embedder.md R108). -/

namespace Sys2Proof.Machine

/-- Two pixels that can differ in bit 0 of blue only. -/
def EqUpToLsb (px qx : Pixel) : Prop := px.r = qx.r ∧ px.g = qx.g ∧ px.b &&& 0xFE#8 = qx.b &&& 0xFE#8

theorem EqUpToLsb.refl (px : Pixel) : EqUpToLsb px px := ⟨rfl, rfl, rfl⟩

/-- A payload bit is the byte `00` or `01`, so it does not reach bits 7 to 1 (R106, R176). -/
theorem payloadBit_upperBits (S : Nat → Byte) (p : Nat) : payloadBit S p &&& 0xFE#8 = 0#8 := by
  rw [payloadBit, bitAt_eq]
  split <;> rfl

theorem setLsb_upperBits {bit : Byte} (hbit : bit &&& 0xFE#8 = 0#8) (blue : Byte) :
    setLsb blue bit &&& 0xFE#8 = blue &&& 0xFE#8 := by
  have hmask : blue &&& 0xFE#8 &&& 0xFE#8 = blue &&& 0xFE#8 := by rw [BitVec.and_assoc, BitVec.and_self]
  rw [setLsb, BitVec.and_or_distrib_right, hmask, hbit, BitVec.or_zero]

/-- What EMBED puts in place of a pixel it embeds in (R103). -/
theorem eqUpToLsb_embedded (px : Pixel) (S : Nat → Byte) (p : Nat) :
    EqUpToLsb { px with b := setLsb px.b (payloadBit S p) } px :=
  ⟨rfl, rfl, setLsb_upperBits (payloadBit_upperBits S p) px.b⟩

theorem eqUpToLsb_embedPass {s : State} (hfit : 8 * s.dlen ≤ gridSize s) (p : Nat) :
    EqUpToLsb (readPix (embedPass s) p) (readPix s p) := by
  rw [readPix_embedPass hfit]
  split
  · exact eqUpToLsb_embedded _ _ p
  · exact .refl _

theorem eqUpToLsb_hidePass {s : State} (hfit : (s.dlen + 3) * 8 ≤ gridSize s) (p : Nat) :
    EqUpToLsb (readPix (hidePass s) p) (readPix s p) := by
  rw [readPix_hidePass hfit]
  split
  · exact eqUpToLsb_embedded _ _ p
  · exact .refl _

/-- Settles O40: EMBED and HIDE alone write PIX, and both do so by the blue update of R106. -/
theorem onlyBlueBitZeroEverChanges : Obligations.OnlyBlueBitZeroEverChanges := by
  intro i s t p hexec
  change EqUpToLsb (readPix t p) (readPix s p)
  by_cases hembed : i = .embed
  · subst hembed
    rcases execEmbed_next hexec with ⟨-, rfl⟩ | ⟨hfit, -, rfl⟩
    · exact .refl _
    · exact eqUpToLsb_embedPass (by omega) p
  by_cases hhide : i = .hide
  · subst hhide
    rcases execHide_next hexec with ⟨-, rfl⟩ | ⟨-, -, rfl⟩ | ⟨-, hfit, -, rfl⟩
    · exact .refl _
    · exact .refl _
    · exact eqUpToLsb_hidePass hfit p
  · obtain ⟨-, -, -, -, -, -, hpix, -⟩ := commandsWriteOnlyTheirOwnState i s t hexec
    rw [hpix hembed hhide p]
    exact .refl _

end Sys2Proof.Machine

/-! Host accesses to the buffers and the layout of their words (20_memory.md R42 to R54). -/

namespace Sys2Proof.Machine

variable {s : State}

/-! ## The words of a byte and of a pixel -/

/-- Masking a word to its low `n` bits is taking its remainder. -/
theorem toNat_and_lowBits (w : Word) {n : Nat} {mask : Word} (hmask : mask.toNat = 2 ^ n - 1) :
    (w &&& mask).toNat = w.toNat % 2 ^ n := by
  rw [BitVec.toNat_and, hmask, Nat.and_two_pow_sub_one_eq_mod]

/-- R46: the unused bits 31:8 of a byte's word read 0. -/
theorem wordOfByte_byteOfWord (w : Word) : wordOfByte (byteOfWord w) = w &&& 0x000000FF := by
  apply BitVec.eq_of_toNat_eq
  rw [toNat_and_lowBits w (n := 8) rfl, wordOfByte, byteOfWord, BitVec.zeroExtend,
    BitVec.toNat_setWidth_of_le (by decide), BitVec.extractLsb'_toNat, Nat.shiftRight_zero]

theorem toNat_append_byte {m : Nat} (x : BitVec m) (v : Byte) : (x ++ v).toNat = x.toNat * 2 ^ 8 + v.toNat := by
  rw [BitVec.toNat_append, ← Nat.shiftLeft_add_eq_or_of_lt v.isLt, Nat.shiftLeft_eq]

/-- The number that a pixel's word spells (R46). -/
theorem toNat_wordOfPixel (px : Pixel) :
    (wordOfPixel px).toNat = px.r.toNat * 2 ^ 16 + px.g.toNat * 2 ^ 8 + px.b.toNat := by
  change ((0 : Byte) ++ px.r ++ px.g ++ px.b).toNat = _
  rw [toNat_append_byte, toNat_append_byte, toNat_append_byte]
  change ((0 * 2 ^ 8 + px.r.toNat) * 2 ^ 8 + px.g.toNat) * 2 ^ 8 + px.b.toNat = _
  omega

/-- R46: the unused bits 31:24 of a pixel's word read 0. -/
theorem wordOfPixel_pixelOfWord (w : Word) : wordOfPixel (pixelOfWord w) = w &&& 0x00FFFFFF := by
  apply BitVec.eq_of_toNat_eq
  rw [toNat_and_lowBits w (n := 24) rfl, toNat_wordOfPixel]
  simp only [pixelOfWord, BitVec.extractLsb'_toNat, Nat.shiftRight_eq_div_pow]
  omega

theorem wordOfPixel_blue (px : Pixel) : (wordOfPixel px).extractLsb' 0 8 = px.b := BitVec.extractLsb'_append_eq_right

theorem wordOfPixel_green (px : Pixel) : (wordOfPixel px).extractLsb' 8 8 = px.g := by
  refine (BitVec.extractLsb'_append_eq_of_le (xlo := px.b) (by decide)).trans ?_
  exact BitVec.extractLsb'_append_eq_right

theorem wordOfPixel_red (px : Pixel) : (wordOfPixel px).extractLsb' 16 8 = px.r := by
  refine (BitVec.extractLsb'_append_eq_of_le (xlo := px.b) (by decide)).trans ?_
  refine (BitVec.extractLsb'_append_eq_of_le (xlo := px.g) (by decide)).trans ?_
  exact BitVec.extractLsb'_append_eq_right

theorem wordOfPixel_unused (px : Pixel) : (wordOfPixel px).extractLsb' 24 8 = 0 := by
  refine (BitVec.extractLsb'_append_eq_of_le (xlo := px.b) (by decide)).trans ?_
  refine (BitVec.extractLsb'_append_eq_of_le (xlo := px.g) (by decide)).trans ?_
  exact BitVec.extractLsb'_append_eq_left

theorem pixelOfWord_wordOfPixel (px : Pixel) : pixelOfWord (wordOfPixel px) = px := by
  rw [pixelOfWord, wordOfPixel_red, wordOfPixel_green, wordOfPixel_blue]

/-- Settles O59. -/
theorem pixelWordLayout : Obligations.PixelWordLayout := fun w px =>
  ⟨wordOfPixel_pixelOfWord w, pixelOfWord_wordOfPixel px, wordOfPixel_red px, wordOfPixel_green px,
    wordOfPixel_blue px, wordOfPixel_unused px⟩

/-! ## The step and the busy port -/

/-- Settles O8: the event that comes next is the access. -/
theorem stepDeliversTheNextHostAccess : Obligations.StepDeliversTheNextHostAccess :=
  fun _ _ _ hnext => step_cons hnext

theorem hostWrite_busy (hbusy : s.busy = true) (sel : Region) (idx v : Word) : hostWrite sel idx v s = s :=
  if_pos hbusy

/-- Settles O50. -/
theorem hostWritesAreIgnoredWhileBusy : Obligations.HostWritesAreIgnoredWhileBusy :=
  fun _ sel idx v hbusy => hostWrite_busy hbusy sel idx v

/-- R54: STATUS is the one element that BUSY = 1 does not hide. -/
theorem hostRead_status (s : State) : hostRead .reg 1 s = { s with hRData := statusWord s } :=
  if_neg fun hhidden => hhidden.2 ⟨rfl, rfl⟩

theorem hostRead_busy (hbusy : s.busy = true) {sel : Region} {idx : Word} (hother : ¬ (sel = .reg ∧ idx = 1)) :
    hostRead sel idx s = { s with hRData := Config.busyRead s.draws, draws := s.draws + 1 } :=
  if_pos ⟨hbusy, hother⟩

/-- Settles O51. -/
theorem onlyStatusIsReadableWhileBusy : Obligations.OnlyStatusIsReadableWhileBusy :=
  fun s _ _ => ⟨hostRead_status s, fun hbusy hother => hostRead_busy hbusy hother⟩

/-! ## The idle port -/

/-- No element's word depends on what the port last answered (R50). -/
theorem elementRead_hRData (s : State) (r : Word) (sel : Region) (idx : Nat) :
    elementRead { s with hRData := r } sel idx = elementRead s sel idx := by
  cases sel <;> rfl

/-- Settles O52: an idle read answers the element's word, which the port's output is no part of. -/
theorem hostReadsHaveNoSideEffects : Obligations.HostReadsHaveNoSideEffects := by
  intro s sel idx hidle
  rw [hostRead_idle hidle]
  refine ⟨rfl, ?_⟩
  rw [hostRead_idle (s := { s with hRData := elementRead s sel idx.toNat }) hidle]
  exact elementRead_hRData s _ sel idx.toNat

/-- How many elements a region has (R37, R48). -/
def regionSize (s : State) : Region → Nat
  | .reg => 12
  | .key => s.cfg.kmax
  | .data => s.cfg.dmax
  | .pix => s.cfg.pmax

theorem elementWrite_beyond {sel : Region} {idx : Nat} (h : regionSize s sel ≤ idx) (v : Word) :
    elementWrite s sel idx v = s := by
  cases sel with
  | reg =>
    have hreserved : 12 ≤ idx := h
    exact regWrite_ignored (.inr (by omega)) v
  | key | data | pix => exact if_neg (Nat.not_lt.2 h)

theorem elementRead_beyond {sel : Region} {idx : Nat} (h : regionSize s sel ≤ idx) : elementRead s sel idx = 0 := by
  cases sel with
  | reg => exact regRead_reserved h
  | key | data | pix => exact if_neg (Nat.not_lt.2 h)

/-- Settles O58: the four cases are the sizes of the four regions. -/
theorem accessesBeyondARegionAreHarmless : Obligations.AccessesBeyondARegionAreHarmless := by
  intro s sel idx v hidle hcases
  have hbeyond : regionSize s sel ≤ idx.toNat := by
    rcases hcases with ⟨rfl, h⟩ | ⟨rfl, h⟩ | ⟨rfl, h⟩ | ⟨rfl, h⟩ <;> exact h
  rw [hostWrite_idle hidle, hostRead_idle hidle, elementWrite_beyond hbeyond, elementRead_beyond hbeyond]
  exact ⟨rfl, rfl⟩

/-! ## Read after write -/

theorem elementWrite_key {idx : Nat} (h : idx < s.cfg.kmax) (v : Word) :
    elementWrite s .key idx v = writeKey s idx (byteOfWord v) := if_pos h

theorem elementWrite_data {idx : Nat} (h : idx < s.cfg.dmax) (v : Word) :
    elementWrite s .data idx v = writeData s idx (byteOfWord v) := if_pos h

theorem elementWrite_pix {idx : Nat} (h : idx < s.cfg.pmax) (v : Word) :
    elementWrite s .pix idx v = writePix s idx (pixelOfWord v) := if_pos h

/-- Settles O57: an idle write inside the region writes the one element, and its word is read back masked. -/
theorem bufferWritesReadBack : Obligations.BufferWritesReadBack := by
  intro s idx v hidle
  refine ⟨fun hidx => ?key, fun hidx => ?data, fun hidx => ?pix⟩
  case key =>
    rw [hostWrite_idle hidle, elementWrite_key hidx, hostRead_idle (s := writeKey s _ _) hidle]
    refine ⟨?_, fun j hj => by rw [readKey_writeKey, if_neg hj], rfl⟩
    simp [elementRead, hidx, wordOfByte_byteOfWord]
  case data =>
    rw [hostWrite_idle hidle, elementWrite_data hidx, hostRead_idle (s := writeData s _ _) hidle]
    refine ⟨?_, fun j hj => by rw [readData_writeData, if_neg hj], rfl⟩
    simp [elementRead, hidx, wordOfByte_byteOfWord]
  case pix =>
    rw [hostWrite_idle hidle, elementWrite_pix hidx, hostRead_idle (s := writePix s _ _) hidle]
    refine ⟨?_, fun j hj => by rw [readPix_writePix, if_neg hj], rfl⟩
    simp [elementRead, hidx, wordOfPixel_pixelOfWord]

end Sys2Proof.Machine

/-! Command words: the decoder and the encoder are inverse on the eight commands' words, and what a step does with an
accepted word (30_encoding.md R59 to R71; 60_exceptions.md R137; 70_reset_and_hazards.md R172). -/

namespace Sys2Proof.Machine

variable {i : Instr} {s : State} {w : Word} {rest : List Event}

/-! ## The two fields of a word -/

theorem zeroField_append_opcodeField (w : Word) : zeroField w ++ opcodeField w = w :=
  (BitVec.extractLsb'_append_extractLsb'_eq_extractLsb' rfl).trans BitVec.extractLsb'_eq_self

@[simp] theorem zeroField_encode (i : Instr) : zeroField (encode i) = 0 := BitVec.extractLsb'_append_eq_left

@[simp] theorem opcodeField_encode (i : Instr) : opcodeField (encode i) = opcodeOf i :=
  BitVec.extractLsb'_append_eq_right

/-- A word is a command's word exactly when its fields are the command's (R59). -/
theorem encode_eq_iff : encode i = w ↔ zeroField w = 0 ∧ opcodeField w = opcodeOf i := by
  constructor
  · rintro rfl
    exact ⟨zeroField_encode i, opcodeField_encode i⟩
  · rintro ⟨hzero, hop⟩
    rw [← zeroField_append_opcodeField w, hzero, hop, encode]

/-! ## The opcode map -/

theorem wellFormed_iff : i.wellFormed = true ↔ i.canonical = i := decide_eq_true_iff

/-- The only names that are not well formed are ENCRYPT and DECRYPT (R71). -/
theorem canonical_of_not_wellFormed (h : i.wellFormed = false) : i.canonical = .xor := by
  cases i with
  | encrypt | decrypt => rfl
  | _ => exact absurd h (by decide)

theorem decodeOpcode_opcodeOf (i : Instr) : decodeOpcode (opcodeOf i).toNat = .ok i.canonical := by
  cases i <;> rfl

theorem decodeOpcode_eq_ok_iff {n : Nat} :
    decodeOpcode n = .ok i ↔ i.wellFormed = true ∧ (opcodeOf i).toNat = n := by
  constructor
  · intro h
    unfold decodeOpcode at h
    split at h <;> cases h <;> exact ⟨rfl, rfl⟩
  · rintro ⟨hwf, rfl⟩
    rw [decodeOpcode_opcodeOf, wellFormed_iff.1 hwf]

theorem decodeOpcode_eq_error_iff {n : Nat} : (∃ e, decodeOpcode n = .error e) ↔ n = 0 ∨ 9 ≤ n := by
  unfold decodeOpcode
  split
  case h_9 => exact iff_of_true ⟨_, rfl⟩ (by grind)
  all_goals simp

/-! ## The decoder -/

theorem decode_of_zeroField (h : zeroField w = 0) : decode w = decodeOpcode (opcodeField w).toNat :=
  if_neg (not_not_intro h)

theorem decode_of_upperBits (h : zeroField w ≠ 0) : decode w = .error .nonzeroUpperBits := if_pos h

@[simp] theorem decode_encode (i : Instr) : decode (encode i) = .ok i.canonical := by
  rw [decode_of_zeroField (zeroField_encode i), opcodeField_encode, decodeOpcode_opcodeOf]

theorem decode_eq_ok_iff : decode w = .ok i ↔ i.wellFormed = true ∧ encode i = w := by
  constructor
  · intro h
    by_cases hzero : zeroField w = 0
    · rw [decode_of_zeroField hzero, decodeOpcode_eq_ok_iff] at h
      obtain ⟨hwf, hop⟩ := h
      exact ⟨hwf, encode_eq_iff.2 ⟨hzero, (BitVec.eq_of_toNat_eq hop).symm⟩⟩
    · rw [decode_of_upperBits hzero] at h
      cases h
  · rintro ⟨hwf, rfl⟩
    rw [decode_encode, wellFormed_iff.1 hwf]

theorem decode_eq_error_iff :
    (∃ e, decode w = .error e) ↔ zeroField w ≠ 0 ∨ (opcodeField w).toNat = 0 ∨ 9 ≤ (opcodeField w).toNat := by
  by_cases hzero : zeroField w = 0
  · rw [decode_of_zeroField hzero, decodeOpcode_eq_error_iff, or_iff_right (not_not_intro hzero)]
  · exact iff_of_true ⟨_, decode_of_upperBits hzero⟩ (.inl hzero)

/-- The decoder is total (R67): a word that no command has is illegal. -/
theorem decode_error_of_no_command (h : ∀ i, encode i ≠ w) : ∃ e, decode w = .error e := by
  cases hdec : decode w with
  | ok i => exact absurd (decode_eq_ok_iff.1 hdec).2 (h i)
  | error e => exact ⟨e, rfl⟩

/-- Settles O4: decoding an encoded name gives the command it stands for. -/
theorem decodeOfEncodeIsTheCommand : Obligations.DecodeOfEncodeIsTheCommand := by
  intro i
  rw [decode_encode]
  exact ⟨fun hwf => by rw [wellFormed_iff.1 hwf], fun hother => by rw [canonical_of_not_wellFormed hother]⟩

/-- Settles O5: the two fields make up the word, and the opcode map is the inverse of the table of opcodes. -/
theorem decoderAcceptsExactlyTheEightWords : Obligations.DecoderAcceptsExactlyTheEightWords :=
  fun _ => ⟨fun _ => decode_eq_ok_iff, decode_eq_error_iff⟩

/-- Settles O6. -/
theorem sampleWordsDecode : Obligations.SampleWordsDecode :=
  ⟨rfl, rfl, rfl, rfl, rfl, rfl, rfl, rfl, rfl, rfl, rfl⟩

/-! ## The acceptance and the completion of a word -/

/-- A CMD write on an idle block is the acceptance (R60). -/
theorem hostWrite_cmd_idle (hidle : s.busy = false) (w : Word) : hostWrite .reg 0 w s = accept w s :=
  hostWrite_idle hidle .reg 0 w

theorem step_cmd_idle (hidle : s.busy = false) (hs : s.schedule = .access (.write .reg 0 w) :: rest) :
    step s = .next (accept w { s with schedule := rest }) := by
  rw [step_cons hs, takeEvent, hostAccess, hostWrite_cmd_idle (s := { s with schedule := rest }) hidle]

theorem step_nil (hs : s.schedule = []) : step s = sequencerMove s := by rw [step, hs]

theorem step_sequencer (hs : s.schedule = .sequencer :: rest) :
    step s = sequencerMove { s with schedule := rest } := step_cons hs

theorem sequencerMove_busy (hbusy : s.busy = true) : sequencerMove s = runAccepted s := if_pos hbusy

theorem sequencerMove_idle (hidle : s.busy = false) : sequencerMove s = .next s := by simp [sequencerMove, hidle]

theorem sequencerMove_command (hbusy : s.busy = true) (hdec : decode s.lastCmd = .ok i) :
    sequencerMove s = exec i s := by
  rw [sequencerMove_busy hbusy, runAccepted, fetchWord, hdec]

theorem sequencerMove_illegal (hbusy : s.busy = true) {e : DecodeError} (hdec : decode s.lastCmd = .error e) :
    sequencerMove s = .next (raise .illegal s) := by
  rw [sequencerMove_busy hbusy, runAccepted, fetchWord, hdec]

/-- Settles O7. -/
theorem stepRunsTheAcceptedCommand : Obligations.StepRunsTheAcceptedCommand := fun s _ hbusy hdec =>
  ⟨fun hs => (step_nil hs).trans (sequencerMove_command hbusy hdec),
    fun rest hs => (step_sequencer hs).trans (sequencerMove_command (s := { s with schedule := rest }) hbusy hdec)⟩

/-- Settles O9. -/
theorem cmdWriteIsAcceptedWhenIdle : Obligations.CmdWriteIsAcceptedWhenIdle := fun _ w =>
  ⟨fun hidle => hostWrite_cmd_idle hidle w, fun hbusy => hostWrite_busy hbusy .reg 0 w⟩

/-- Settles O11: no command has the word, so it decodes to an error, and the completion of the accepted word raises. -/
theorem illegalWordReportsAndChangesNothingElse : Obligations.IllegalWordReportsAndChangesNothingElse := by
  intro s w rest hidle hs hno
  obtain ⟨e, hdec⟩ := decode_error_of_no_command hno
  refine ⟨decode_eq_error_iff.1 ⟨e, hdec⟩, _, step_cmd_idle hidle hs, rfl, rfl, ?_⟩
  rw [step_sequencer rfl]
  exact sequencerMove_illegal (s := { accept w s with schedule := rest }) rfl hdec

/-! ## WAIT -/

/-- A read of a `WAIT` that shows DONE = 1 is the last one (R70). -/
theorem step_waitDone_done (hs : s.schedule = .waitDone :: rest) (hdone : s.done = true) :
    step s = .next { s with schedule := rest, hRData := statusWord s } := by
  rw [step_cons hs, takeEvent, pollStatus_eq]
  simp [hdone, statusWord]

/-- A read of a `WAIT` that shows DONE = 0 is repeated after the sequencer has moved (R70, log 14). -/
theorem step_waitDone_notDone (hs : s.schedule = .waitDone :: rest) (hdone : s.done = false) :
    step s = .next { s with schedule := .sequencer :: .waitDone :: rest, hRData := statusWord s } := by
  rw [step_cons hs, takeEvent, pollStatus_eq]
  simp [hdone, statusWord]

/-- An idle block with DONE = 0 in the middle of a `WAIT`: the read comes next, or the time before the next read. -/
structure WaitsIdle (rest : List Event) (s : State) : Prop where
  busy : s.busy = false
  done : s.done = false
  schedule : s.schedule = .waitDone :: rest ∨ s.schedule = .sequencer :: .waitDone :: rest

theorem WaitsIdle.step (h : WaitsIdle rest s) : ∃ t, step s = .next t ∧ WaitsIdle rest t := by
  obtain ⟨hbusy, hdone, hs | hs⟩ := h
  · exact ⟨_, step_waitDone_notDone hs hdone, hbusy, hdone, .inr rfl⟩
  · refine ⟨{ s with schedule := .waitDone :: rest }, ?_, hbusy, hdone, .inl rfl⟩
    exact (step_sequencer hs).trans (sequencerMove_idle hbusy)

theorem WaitsIdle.run (n : Nat) (h : WaitsIdle rest s) : ∃ t, Sys2Proof.core.run n s = .next t ∧ WaitsIdle rest t := by
  induction n generalizing s with
  | zero => exact ⟨s, rfl, h⟩
  | succ n ih =>
    obtain ⟨t, hstep, ht⟩ := h.step
    rw [run_succ hstep]
    exact ih ht

/-- In range, the sequencer's event completes a command whose word has been accepted (R172). -/
theorem step_completes (h : s.InRange) (hbusy : s.busy = true) (hcmd : s.lastCmd = encode i)
    (hs : s.schedule = .sequencer :: rest) :
    ∃ t, step s = .next t ∧ t.busy = false ∧ t.done = true ∧ t.lastCmd = encode i ∧ t.schedule = rest := by
  have hdec : decode s.lastCmd = .ok i.canonical := by rw [hcmd, decode_encode]
  have hstep := (stepRunsTheAcceptedCommand s _ hbusy hdec).2 rest hs
  obtain ⟨t, hexec, -, hidle, hdone⟩ := noCommandLeavesItsBuffers i.canonical { s with schedule := rest } h
  obtain ⟨-, -, -, -, hlast, -, -, hsched, -⟩ := commandsNeverWriteTheHostsOperands _ _ _ hexec
  exact ⟨t, hstep.trans hexec, hidle, hdone, hlast.trans hcmd, hsched⟩

/-- A `WAIT` while a command runs: a read with DONE = 0, the completion, and a read with DONE = 1 (R70, log 14). -/
theorem run_waitDone_busy (h : s.InRange) (hbusy : s.busy = true) (hrunning : s.done = false)
    (hcmd : s.lastCmd = encode i) (hs : s.schedule = .waitDone :: rest) :
    ∃ t : State, Sys2Proof.core.run 3 s = .next t ∧ t.schedule = rest ∧ t.done = true ∧ t.busy = false ∧
      t.lastCmd = encode i ∧ t.hRData = statusWord t := by
  obtain ⟨t, hcompletes, hidle, hdone, hlast, hsched⟩ := step_completes
    (s := { s with schedule := .sequencer :: .waitDone :: rest, hRData := statusWord s }) h hbusy hcmd rfl
  refine ⟨{ t with schedule := rest, hRData := statusWord t }, ?_, rfl, hdone, hidle, hlast, rfl⟩
  rw [run_succ (step_waitDone_notDone hs hrunning), run_succ hcompletes, run_succ (step_waitDone_done hsched hdone)]
  rfl

/-- Settles O12: the two kinds of read, the idle `WAIT` as an invariant of the run, and the `WAIT` of a running command
after the step that accepts it. -/
theorem cmdThenWaitReadsDone : Obligations.CmdThenWaitReadsDone := by
  constructor
  · intro s rest hs
    refine ⟨step_waitDone_done hs, step_waitDone_notDone hs, fun hidle hdone n => ?_⟩
    obtain ⟨t, hrun, -, htdone, hts⟩ := WaitsIdle.run n ⟨hidle, hdone, .inl hs⟩
    exact ⟨t, hrun, htdone, hts⟩
  · intro s i hrange hidle hs
    have haccept := step_cmd_idle (w := encode i) (rest := [.waitDone]) hidle hs
    obtain ⟨t, hrun, hsched, hdone, hbusy, hlast, hport⟩ :=
      run_waitDone_busy (s := accept (encode i) { s with schedule := [.waitDone] }) hrange rfl rfl rfl rfl
    refine ⟨t, (run_succ haccept 3).trans hrun, hsched, hdone, hbusy, hlast, hport, ?_⟩
    rw [hport, getLsbD_statusWord]
    exact hdone

end Sys2Proof.Machine

/-! The cipher command under its three names: what it answers, that it undoes itself and that it repeats with the key
(40_xor_cipher.md R76, R77, R79, R81). -/

namespace Sys2Proof.Machine

variable {i : Instr} {s t : State}

/-! ## The command -/

theorem encode_cipher (hi : isCipher i) : encode i = 0x00000001 := by
  rcases hi with rfl | rfl | rfl <;> rfl

theorem errorOf_cipher (hi : isCipher i) (s : State) : errorOf i s = if s.klen = 0 then .key else .none := by
  rcases hi with rfl | rfl | rfl <;> rfl

theorem passOf_cipher (hi : isCipher i) (s : State) : passOf i s = cipherPass s := by
  rcases hi with rfl | rfl | rfl <;> rfl

/-- R76: the key test. -/
theorem exec_cipher_emptyKey (hi : isCipher i) (hkey : s.klen = 0) : exec i s = .next (raise .key s) := by
  have herr : errorOf i s = .key := by rw [errorOf_cipher hi, if_pos hkey]
  rw [exec_of_error (by simp [herr]), herr]

/-- R77: in range and with a key, the command is the pass over DATA and the completion. -/
theorem exec_cipher (hi : isCipher i) (h : s.InRange) (hkey : 1 ≤ s.klen) :
    exec i s = .next (complete (cipherPass s)) := by
  have hok : errorOf i s = .none := by rw [errorOf_cipher hi, if_neg (Nat.ne_of_gt hkey)]
  rw [exec_of_fit hok (extentsFit_of_inRange h hok), passOf_cipher hi]

/-- The next state of a cipher command is its completed pass. -/
theorem eq_of_exec_cipher (hi : isCipher i) (h : s.InRange) (hkey : 1 ≤ s.klen) (hexec : exec i s = .next t) :
    t = complete (cipherPass s) := by
  rw [exec_cipher hi h hkey] at hexec
  cases hexec
  rfl

/-! ## What the pass keeps -/

@[simp] theorem cipherPass_klen (s : State) : (cipherPass s).klen = s.klen := by rw [cipherPass_frame]

@[simp] theorem cipherPass_dlen (s : State) : (cipherPass s).dlen = s.dlen := by rw [cipherPass_frame]

@[simp] theorem readKey_cipherPass (s : State) (j : Nat) : readKey (cipherPass s) j = readKey s j := by
  rw [cipherPass_frame]; rfl

@[simp] theorem readPix_cipherPass (s : State) (p : Nat) : readPix (cipherPass s) p = readPix s p := by
  rw [cipherPass_frame]; rfl

@[simp] theorem keyByteFor_cipherPass (s : State) (j : Nat) : keyByteFor (cipherPass s) j = keyByteFor s j := by
  simp [keyByteFor]

theorem cipherPass_inRange (h : s.InRange) : (cipherPass s).InRange := by rw [cipherPass_frame]; exact h

/-- The pass reads none of ERR, BUSY and DONE. -/
theorem cipherPass_complete (s : State) : cipherPass (complete s) = complete (cipherPass s) :=
  cipherPass_withStatus .none false true s

/-! ## What the pass does to DATA -/

/-- R79: each byte meets the same key byte twice. -/
theorem readData_cipherPass_cipherPass (s : State) (j : Nat) :
    readData (cipherPass (cipherPass s)) j = readData s j := by
  rw [readData_cipherPass, readData_cipherPass, cipherPass_dlen, keyByteFor_cipherPass]
  split
  · rw [BitVec.xor_assoc, BitVec.xor_self, BitVec.xor_zero]
  · rfl

/-- What the pass has xored into a byte below DLEN is its key byte (R77). -/
theorem readData_cipherPass_xor_readData {j : Nat} (hj : j < s.dlen) :
    readData (cipherPass s) j ^^^ readData s j = keyByteFor s j := by
  rw [readData_cipherPass, if_pos hj, BitVec.xor_comm, ← BitVec.xor_assoc, BitVec.xor_self, BitVec.zero_xor]

theorem keyByteFor_add_klen (s : State) (j : Nat) : keyByteFor s (j + s.klen) = keyByteFor s j := by
  rw [keyByteFor, Nat.add_mod_right, keyByteFor]

theorem sameData_cipherPass_of_zeroKey (hkey : 1 ≤ s.klen) (hzero : ∀ k < s.klen, readKey s k = 0) :
    sameData s (cipherPass s) := by
  intro j
  have hbyte : keyByteFor s j = 0#8 := hzero _ (Nat.mod_lt j hkey)
  rw [readData_cipherPass, hbyte, BitVec.xor_zero, ite_self]

/-! ## The statements -/

/-- Settles O13: the key test, or the completed pass, byte by byte and with its frame. -/
theorem xorReplacesDataByKeyedBytes : Obligations.XorReplacesDataByKeyedBytes := by
  intro i s hi
  refine ⟨encode_cipher hi, exec_cipher_emptyKey hi, fun h hkey => ⟨_, exec_cipher hi h hkey, ?below, ?beyond,
    readKey_cipherPass s, readPix_cipherPass s, ?frame⟩⟩
  case below =>
    intro j hj
    rw [readData_complete, readData_cipherPass, if_pos hj, keyByteFor]
  case beyond =>
    intro j hj
    rw [readData_complete, readData_cipherPass, if_neg (Nat.not_lt.2 hj)]
  case frame => rw [cipherPass_frame s]; rfl

/-- Settles O15: the second command runs the pass on the completed pass. -/
theorem xorTwiceRestoresData : Obligations.XorTwiceRestoresData := by
  intro i j s t hi hj h hkey hexec
  obtain rfl := eq_of_exec_cipher hi h hkey hexec
  have hrange : (complete (cipherPass s)).InRange := cipherPass_inRange h
  have hkeyed : 1 ≤ (complete (cipherPass s)).klen := by simpa using hkey
  refine ⟨_, exec_cipher hj hrange hkeyed, ?_⟩
  rw [cipherPass_complete]
  exact ⟨readData_cipherPass_cipherPass s, by simp, fun k => by simp, by simp⟩

/-- Settles O16: indices `klen` apart are equal modulo `klen`, and a key of zeros xors zero into every byte. -/
theorem cipherIsPeriodicInTheKey : Obligations.CipherIsPeriodicInTheKey := by
  intro i s t hi h hkey hexec
  obtain rfl := eq_of_exec_cipher hi h hkey hexec
  refine ⟨fun j hj => ?_, sameData_cipherPass_of_zeroKey hkey⟩
  have hlow : j < s.dlen := by omega
  rw [readData_complete, readData_complete, readData_cipherPass_xor_readData hlow,
    readData_cipherPass_xor_readData hj, keyByteFor_add_klen]

end Sys2Proof.Machine

/-! APPEND and LOCATE: what each answers, and which marker LOCATE finds on a frame
(41_terminator_codec.md R85, R87, R88, R92, R95). -/

namespace Sys2Proof.Machine

variable {S T : Nat → Byte} {s t : State} {m n i j L : Nat}

/-! ## The first marker of a sequence -/

/-- There is at most one first marker, whatever the lengths. -/
theorem firstMarker_unique (hi : firstMarker S m i) (hj : firstMarker S n j) : i = j := by
  obtain ⟨-, hmarkI, hleastI⟩ := hi
  obtain ⟨-, hmarkJ, hleastJ⟩ := hj
  rcases lt_trichotomy i j with hlt | heq | hgt
  · exact absurd hmarkI (hleastJ i hlt)
  · exact heq
  · exact absurd hmarkJ (hleastI j hgt)

theorem exists_firstMarker (h : ¬ noMarker S n) : ∃ i, firstMarker S n i := by
  simp only [noMarker, not_forall, not_not] at h
  obtain ⟨j, hj, hmark⟩ := h
  have hex : ∃ k, markerEndsAt S k := ⟨j, hmark⟩
  exact ⟨Nat.find hex, (Nat.find_min' hex hmark).trans_lt hj, Nat.find_spec hex, fun k => Nat.find_min hex⟩

theorem noMarker_congr (h : ∀ j < n, T j = S j) : noMarker T n ↔ noMarker S n := by
  refine forall₂_congr fun j hj => ?_
  rw [markerEndsAt, markerEndsAt, h j hj, h (j - 1) (by omega), h (j - 2) (by omega)]

/-- Two markers do not overlap: the first two bytes of a marker are `00`, and a marker ends with `03`. -/
theorem markerEndsAt_not_overlapping (hmark : markerEndsAt S (L + 2)) (hj : markerEndsAt S j) (hlt : j < L + 2) :
    j < L := by
  obtain ⟨-, -, hsecond, hfirst⟩ := hmark
  obtain ⟨-, hlast, -⟩ := hj
  have hne : j ≠ L ∧ j ≠ L + 1 := by
    constructor <;> rintro rfl
    · exact absurd (hfirst.symm.trans hlast) (by decide)
    · exact absurd (hsecond.symm.trans hlast) (by decide)
  omega

/-- R92: the marker of a frame is its first exactly when the bytes before it hold none. -/
theorem firstMarker_frame_iff (hmark : markerEndsAt S (L + 2)) (hlen : L + 3 ≤ n) :
    firstMarker S n (L + 2) ↔ noMarker S L := by
  constructor
  · rintro ⟨-, -, hleast⟩ j hj
    exact hleast j (by omega)
  · intro hnone
    exact ⟨by omega, hmark, fun j hj hmarkJ => hnone j (markerEndsAt_not_overlapping hmark hmarkJ hj) hmarkJ⟩

/-! ## LOCATE -/

theorem matchAt_iff_markerEndsAt (hi : 2 ≤ i) : matchAt s i = true ↔ markerEndsAt (readData s) i := by
  rw [matchAt_iff, markerEndsAt, and_iff_right hi]

theorem matchAt_eq_false_iff (hi : 2 ≤ i) : matchAt s i = false ↔ ¬ markerEndsAt (readData s) i := by
  rw [← matchAt_iff_markerEndsAt hi, Bool.not_eq_true]

theorem locateIn_of_firstMarker (h : firstMarker (readData s) s.dlen i) : locateIn s = some i := by
  obtain ⟨hlt, hmark, hleast⟩ := h
  have htwo : 2 ≤ i := hmark.1
  exact (locateIn_eq_some s i).2
    ⟨htwo, hlt, (matchAt_iff_markerEndsAt htwo).2 hmark, fun j hj hji => (matchAt_eq_false_iff hj).2 (hleast j hji)⟩

theorem locateIn_of_noMarker (h : noMarker (readData s) s.dlen) : locateIn s = none :=
  (locateIn_eq_none s).2 fun j hj hlt => (matchAt_eq_false_iff hj).2 (h j hlt)

/-- R88: in range, the command is the cut and the completion. -/
theorem exec_locate (h : s.InRange) : exec .locate s = .next (complete (locateCut s)) :=
  exec_of_fit rfl (extentsFit_of_inRange h rfl)

theorem exec_locate_found (h : s.InRange) (hi : firstMarker (readData s) s.dlen i) :
    exec .locate s = .next (complete { s with found := true, locIdx := i, dlen := i - 2 }) := by
  rw [exec_locate h, locateCut_found (locateIn_of_firstMarker hi)]

theorem exec_locate_notFound (h : s.InRange) (hnone : noMarker (readData s) s.dlen) :
    exec .locate s = .next (complete { s with found := false, locIdx := 0, dlen := 0 }) := by
  rw [exec_locate h, locateCut_notFound (locateIn_of_noMarker hnone)]

/-! ## APPEND -/

/-- R85: the three bytes do not fit. -/
theorem exec_append_overflow (hfull : s.cfg.dmax < s.dlen + 3) : exec .append s = .next (raise .overflow s) := by
  have herr : errorOf .append s = .overflow := if_pos hfull
  rw [exec_of_error (by simp [herr]), herr]

/-- R85: where the three bytes fit, the command is their writes and the completion. -/
theorem exec_append (hroom : s.dlen + 3 ≤ s.cfg.dmax) : exec .append s = .next (complete (appendFrame s)) :=
  exec_of_fit (errorOf_append_eq_none.2 hroom) ⟨Nat.zero_le _, hroom, Nat.zero_le _⟩

theorem readData_appendFrame_of_outside (h : j < s.dlen ∨ s.dlen + 3 ≤ j) :
    readData (appendFrame s) j = readData s j := by
  rw [readData_appendFrame, if_neg (by omega), if_neg (by omega), if_neg (by omega)]

theorem readData_appendFrame_first (s : State) : readData (appendFrame s) s.dlen = 0x00 := by
  simp [readData_appendFrame]

theorem readData_appendFrame_second (s : State) : readData (appendFrame s) (s.dlen + 1) = 0x00 := by
  simp [readData_appendFrame]

theorem readData_appendFrame_third (s : State) : readData (appendFrame s) (s.dlen + 2) = 0x03 := by
  simp [readData_appendFrame]

theorem appendFrame_inRange (h : s.InRange) (hroom : s.dlen + 3 ≤ s.cfg.dmax) : (appendFrame s).InRange :=
  passOf_inRange h (extentsFit_of_inRange h (errorOf_append_eq_none.2 hroom))

/-! ## The statements -/

/-- Settles O17: the overflow test, or the completed writes, byte by byte and with their frame. -/
theorem appendWritesTheTerminator : Obligations.AppendWritesTheTerminator := fun s =>
  ⟨rfl, exec_append_overflow, fun hroom => ⟨_, exec_append hroom, readData_appendFrame_first s,
    readData_appendFrame_second s, readData_appendFrame_third s, fun _ => readData_appendFrame_of_outside,
    fun _ => rfl, fun _ => rfl, rfl⟩⟩

/-- Settles O18: the scan finds the first marker, or none. -/
theorem locateCutsAtTheFirstTerminator : Obligations.LocateCutsAtTheFirstTerminator := fun _ h =>
  ⟨rfl, fun _ => exec_locate_found h, exec_locate_notFound h⟩

/-- Settles O19: a frame has a first marker, which LOCATE finds; it is the frame's own exactly when none ends before
it. -/
theorem locateOnAFrameFindsTheEarliestMarker : Obligations.LocateOnAFrameFindsTheEarliestMarker := by
  intro s L h hlen hfirst hsecond hthird
  have hmark : markerEndsAt (readData s) (L + 2) := ⟨Nat.le_add_left 2 L, hthird, hsecond, hfirst⟩
  obtain ⟨i, hi⟩ : ∃ i, firstMarker (readData s) s.dlen i :=
    exists_firstMarker fun hnone => hnone (L + 2) hlen hmark
  refine ⟨_, exec_locate_found h hi, rfl, fun _ => rfl, ?own, fun j hj => ?earlier⟩
  case own =>
    calc noMarker (readData s) L
      _ ↔ firstMarker (readData s) s.dlen (L + 2) := (firstMarker_frame_iff hmark hlen).symm
      _ ↔ i = L + 2 := ⟨firstMarker_unique hi, fun heq => heq ▸ hi⟩
      _ ↔ i = L + 2 ∧ i - 2 = L := by omega
  case earlier =>
    obtain rfl := firstMarker_unique hi hj
    exact ⟨rfl, rfl⟩

/-- Settles O20: APPEND makes a frame of the sequence, so LOCATE restores its length when the sequence holds no marker,
and cuts it short at the first marker otherwise. -/
theorem appendThenLocateRestoresUnmarkedData : Obligations.AppendThenLocateRestoresUnmarkedData := by
  intro s t h hroom hexec
  obtain rfl : complete (appendFrame s) = t := by
    rw [exec_append hroom] at hexec
    cases hexec
    rfl
  have hkept : ∀ j < s.dlen, readData (complete (appendFrame s)) j = readData s j := fun _ hj =>
    readData_appendFrame_of_outside (.inl hj)
  obtain ⟨u, hlocate, hfound, hdata, hown, hearlier⟩ :=
    locateOnAFrameFindsTheEarliestMarker (complete (appendFrame s)) s.dlen (appendFrame_inRange h hroom) le_rfl
      (readData_appendFrame_first s) (readData_appendFrame_second s) (readData_appendFrame_third s)
  rw [noMarker_congr hkept] at hown
  refine ⟨u, hlocate, fun j hj => (hdata j).trans (hkept j hj), ⟨fun hlen => ?_, fun hnone => (hown.1 hnone).2⟩,
    fun hnone => ⟨hfound, (hown.1 hnone).1⟩⟩
  by_contra hmarked
  obtain ⟨j, hj⟩ := exists_firstMarker (mt (noMarker_congr hkept).1 hmarked)
  have hcut : u.dlen = j - 2 := (hearlier j hj).2
  have hlt : j < s.dlen := hj.1
  omega

end Sys2Proof.Machine

/-! FITS: the command has no check and indexes no buffer, so it answers its flag from every state
(42_capacity.md R96). -/

namespace Sys2Proof.Machine

variable {s : State}

/-- R96: FITS indexes no element, so its extents fit whatever the sizes of the buffers. -/
theorem extentsFit_fits : extentsFit .fits s := ⟨Nat.zero_le _, Nat.zero_le _, Nat.zero_le _⟩

/-- R96: from every state, in range or not, the command sets its flag to the comparison and completes. -/
theorem exec_fits : exec .fits s = .next (complete { s with fits := fitsIn s.dlen (gridSize s) }) :=
  exec_of_fit rfl extentsFit_fits

/-- Settles O21: the comparison is `fitsIn` on the grid's size, and the completion writes the three status fields. -/
theorem fitsComparesLengthWithGrid : Obligations.FitsComparesLengthWithGrid := by
  intro s
  refine ⟨rfl, ?answer⟩
  case answer => rw [exec_fits, complete, fitsIn, gridSize]

end Sys2Proof.Machine

/-! EMBED: the blue update, what the command answers, its cursor and its pixels
(43_lsb_embedder.md R102 to R106, R109). -/

namespace Sys2Proof.Machine

variable {s t : State} {p : Nat} {b c bit : Byte}

/-! ## The blue update -/

theorem and_upperMask_of_even : ∀ b : Byte, b.getLsbD 0 = false → b &&& 0xFE#8 = b := by decide

theorem and_upperMask_ushiftRight_one : ∀ b : Byte, (b &&& 0xFE#8) >>> 1 = b >>> 1 := by decide

theorem setLsb_of_even (heven : b.getLsbD 0 = false) : setLsb b bit = b ||| bit := by
  rw [setLsb, and_upperMask_of_even b heven]

theorem setLsb_ushiftRight_one (hbit : bit >>> 1 = 0#8) : setLsb b bit >>> 1 = b >>> 1 := by
  rw [setLsb, BitVec.ushiftRight_or_distrib, and_upperMask_ushiftRight_one, hbit, BitVec.or_zero]

theorem setLsb_and_one (hbit : bit &&& 1#8 = bit) : setLsb b bit &&& 1#8 = bit := by
  have hmask : 0xFE#8 &&& 1#8 = 0#8 := by decide
  rw [setLsb, BitVec.and_or_distrib_right, BitVec.and_assoc, hmask, BitVec.and_zero, BitVec.zero_or, hbit]

/-- The update does not read the bit it replaces (R109). -/
theorem setLsb_congr (h : b &&& 0xFE#8 = c &&& 0xFE#8) : setLsb b bit = setLsb c bit := by
  rw [setLsb, h, setLsb]

/-- Settles O60: the mask changes nothing on an even value; the bit written is `00` or `01`. -/
theorem blueUpdateReplacesBitZero : Obligations.BlueUpdateReplacesBitZero := by
  intro b bit hbit
  have hshift : bit >>> 1 = 0#8 := by rcases hbit with rfl | rfl <;> rfl
  have hone : bit &&& 1#8 = bit := by rcases hbit with rfl | rfl <;> rfl
  exact ⟨setLsb_of_even, fun _ => rfl, setLsb_ushiftRight_one hshift, setLsb_and_one hone⟩

/-! ## The command -/

/-- R102: the payload does not fit. -/
theorem exec_embed_capacity (hover : gridSize s < s.dlen * 8) : exec .embed s = .next (raise .capacity s) := by
  have herr : errorOf .embed s = .capacity := if_pos hover
  rw [exec_of_error (by simp [herr]), herr]

/-- R101: in range, where the payload fits, the command is its pass and the completion. -/
theorem exec_embed (h : s.InRange) (hfit : s.dlen * 8 ≤ gridSize s) :
    exec .embed s = .next (complete (embedPass s)) := by
  have hok : errorOf .embed s = .none := errorOf_embed_eq_none.2 hfit
  exact exec_of_fit hok (extentsFit_of_inRange h hok)

theorem embedPass_inRange (h : s.InRange) (hfit : s.dlen * 8 ≤ gridSize s) : (embedPass s).InRange :=
  passOf_inRange h (extentsFit_of_inRange h (errorOf_embed_eq_none.2 hfit))

/-- Settles O24. -/
theorem embedRefusesWhatDoesNotFit : Obligations.EmbedRefusesWhatDoesNotFit :=
  fun _ hover => exec_embed_capacity hover

/-! ## What the pass keeps -/

@[simp] theorem embedPass_dlen (s : State) : (embedPass s).dlen = s.dlen := by
  obtain ⟨_, _, _, hembed⟩ := embedPass_changes s
  rw [hembed]

@[simp] theorem gridSize_embedPass (s : State) : gridSize (embedPass s) = gridSize s := by
  obtain ⟨_, _, _, hembed⟩ := embedPass_changes s
  rw [hembed, gridSize, gridSize]

@[simp] theorem readKey_embedPass (s : State) (i : Nat) : readKey (embedPass s) i = readKey s i := by
  obtain ⟨_, _, _, hembed⟩ := embedPass_changes s
  rw [hembed, readKey, readKey]

@[simp] theorem readData_embedPass (s : State) (i : Nat) : readData (embedPass s) i = readData s i := by
  obtain ⟨_, _, _, hembed⟩ := embedPass_changes s
  rw [hembed, readData, readData]

/-! ## The cursor -/

/-- The loop over `p` pixels counts the payload bits written so far in its cursor, and the pixels in PIXIDX (R104). -/
theorem embedLoop_cursor (s : State) (p : Nat) :
    (forUpTo p embedPixel (embedStart s)).byteIdx = min p (8 * s.dlen) / 8 ∧
      (forUpTo p embedPixel (embedStart s)).bitPos = BitVec.ofNat 3 (7 - min p (8 * s.dlen) % 8) ∧
      (forUpTo p embedPixel (embedStart s)).pixIdx = p := by
  obtain ⟨_, hloop, -⟩ := embedLoop_spec s p
  rw [hloop]
  exact ⟨rfl, rfl, rfl⟩

/-- The end cursor of R104. -/
theorem embedPass_cursor (hfit : 8 * s.dlen ≤ gridSize s) :
    (embedPass s).byteIdx = s.dlen ∧ (embedPass s).bitPos = 7 ∧ (embedPass s).pixIdx = gridSize s := by
  rw [embedPass_frame hfit]
  exact ⟨rfl, rfl, rfl⟩

/-- A bit position counts down from 7 within three bits (R18). -/
theorem toNat_bitPosition (r : Nat) : (BitVec.ofNat 3 (7 - r)).toNat = 7 - r := by
  rw [BitVec.toNat_ofNat]
  exact Nat.mod_eq_of_lt (by omega)

/-- Settles O23: below `8 * DLEN` every pixel takes a payload bit, from there on none does. -/
theorem embedCursorFollowsThePayloadBits : Obligations.EmbedCursorFollowsThePayloadBits := by
  intro s p _
  obtain ⟨hbyte, hpos, hpix⟩ := embedLoop_cursor s p
  refine ⟨fun hle => ?within, fun hge => ?past, hpix⟩
  case within =>
    rw [min_eq_left hle] at hbyte hpos
    exact ⟨hbyte, by rw [hpos, toNat_bitPosition]⟩
  case past =>
    rw [min_eq_right hge] at hbyte hpos
    rw [Nat.mul_div_cancel_left _ (by norm_num)] at hbyte
    rw [Nat.mul_mod_right] at hpos
    exact ⟨hbyte, hpos⟩

/-! ## The pixels -/

theorem readPix_embedPass_of_lt (hfit : 8 * s.dlen ≤ gridSize s) (hp : p < 8 * s.dlen) :
    readPix (embedPass s) p =
      { readPix s p with b := setLsb (readPix s p).b (payloadBit (readData s) p) } := by
  rw [readPix_embedPass hfit, if_pos hp]

theorem readPix_embedPass_of_ge (hfit : 8 * s.dlen ≤ gridSize s) (hp : 8 * s.dlen ≤ p) :
    readPix (embedPass s) p = readPix s p := by
  rw [readPix_embedPass hfit, if_neg (Nat.not_lt.2 hp)]

/-- Settles O22: the completed pass, pixel by pixel and with its frame. -/
theorem embedWritesOneBitPerPixel : Obligations.EmbedWritesOneBitPerPixel := by
  intro s h (hfit : s.dlen * 8 ≤ gridSize s)
  have hle : 8 * s.dlen ≤ gridSize s := by omega
  refine ⟨_, exec_embed h hfit, ?embedded, fun p hp => readPix_embedPass_of_ge hle hp, readData_embedPass s,
    readKey_embedPass s, ?frame⟩
  case embedded =>
    intro p hp
    rw [readPix_complete, readPix_embedPass_of_lt hle hp]
    exact ⟨rfl, rfl, rfl⟩
  case frame => rw [embedPass_frame hle]; rfl

/-- Two pixels equal up to bit 0 of blue become equal when the same bit is embedded in them. -/
theorem EqUpToLsb.embedded_eq {px qx : Pixel} (h : EqUpToLsb px qx) (bit : Byte) :
    { px with b := setLsb px.b bit } = { qx with b := setLsb qx.b bit } := by
  obtain ⟨hred, hgreen, hblue⟩ := h
  rw [hred, hgreen, setLsb_congr hblue]

/-- R109: the same payload makes two pixels equal that were so up to bit 0 of blue. -/
theorem readPix_embedPass_congr (hfit : 8 * s.dlen ≤ gridSize s) (hgrid : gridSize t = gridSize s)
    (hlen : t.dlen = s.dlen) (hdata : sameData s t) (hp : p < 8 * s.dlen)
    (hpix : EqUpToLsb (readPix t p) (readPix s p)) : readPix (embedPass t) p = readPix (embedPass s) p := by
  have hsame : readData t = readData s := funext hdata
  rw [readPix_embedPass_of_lt hfit hp, readPix_embedPass_of_lt (by rwa [hlen, hgrid]) (by rwa [hlen]), hsame]
  exact hpix.embedded_eq _

/-- R109: a second pass finds in each pixel what it writes there. -/
theorem readPix_embedPass_embedPass (hfit : 8 * s.dlen ≤ gridSize s) (p : Nat) :
    readPix (embedPass (embedPass s)) p = readPix (embedPass s) p := by
  rcases lt_or_ge p (8 * s.dlen) with hp | hp
  · exact readPix_embedPass_congr hfit (gridSize_embedPass s) (embedPass_dlen s) (readData_embedPass s) hp
      (eqUpToLsb_embedPass hfit p)
  · exact readPix_embedPass_of_ge (by simpa using hfit) (by simpa using hp)

/-- The pass reads none of ERR, BUSY and DONE. -/
theorem embedPass_complete (s : State) : embedPass (complete s) = complete (embedPass s) :=
  embedPass_withStatus .none false true s

/-- Settles O25: the second command runs the pass on the completed pass; the pass on another state with the same
payload differs from it in nothing that the update reads. -/
theorem embedIsIdempotent : Obligations.EmbedIsIdempotent := by
  intro s t h (hfit : s.dlen * 8 ≤ gridSize s) hexec
  have hle : 8 * s.dlen ≤ gridSize s := by omega
  obtain rfl : complete (embedPass s) = t := by
    rw [exec_embed h hfit] at hexec
    cases hexec
    rfl
  refine ⟨⟨_, exec_embed (embedPass_inRange h hfit) (by simpa using hfit), ?again⟩,
    fun s' h' hwidth hheight hlen hdata hpix => ?other⟩
  case again =>
    obtain ⟨hbyte, hpos, hidx⟩ := embedPass_cursor hle
    obtain ⟨hbyte', hpos', hidx'⟩ := embedPass_cursor (s := embedPass s) (by simpa using hle)
    rw [embedPass_complete]
    exact ⟨readPix_embedPass_embedPass hle, by simp [hbyte, hbyte'], by simp [hpos, hpos'], by simp [hidx, hidx']⟩
  case other =>
    have hgrid : gridSize s' = gridSize s := by rw [gridSize, hwidth, hheight, gridSize]
    exact ⟨_, exec_embed h' (by rwa [hlen, hgrid]), fun p hp =>
      readPix_embedPass_congr hle hgrid hlen hdata hp (hpix p hp)⟩

end Sys2Proof.Machine

/-! EXTRACT: what the command answers, and the stream that an embedded grid spells
(44_lsb_extractor.md R115, R116, R119). -/

namespace Sys2Proof.Machine

variable {s t : State} {S : Nat → Byte} {i k n : Nat}

/-! ## The command -/

/-- R112: in range, the command is its pass and the completion. -/
theorem exec_extract (h : s.InRange) : exec .extract s = .next (complete (extractPass s)) :=
  exec_of_fit rfl (extentsFit_of_inRange h rfl)

@[simp] theorem extractPass_dlen (s : State) : (extractPass s).dlen = gridSize s / 8 := by rw [extractPass_frame]

@[simp] theorem readKey_extractPass (s : State) (j : Nat) : readKey (extractPass s) j = readKey s j := by
  rw [extractPass_frame, readKey, readKey]

@[simp] theorem readPix_extractPass (s : State) (p : Nat) : readPix (extractPass s) p = readPix s p := by
  rw [extractPass_frame, readPix, readPix]

theorem readData_extractPass_of_lt (hk : k < gridSize s / 8) : readData (extractPass s) k = streamByte s k := by
  rw [readData_extractPass, if_pos hk]

theorem readData_extractPass_of_ge (hk : gridSize s / 8 ≤ k) : readData (extractPass s) k = readData s k := by
  rw [readData_extractPass, if_neg (Nat.not_lt.2 hk)]

/-- Settles O26: the completed pass, byte by byte and with its frame. -/
theorem extractPacksTheBlueBits : Obligations.ExtractPacksTheBlueBits := by
  intro s h
  refine ⟨_, exec_extract h, fun k hk => readData_extractPass_of_lt hk, fun k hk => readData_extractPass_of_ge hk,
    readKey_extractPass s, readPix_extractPass s, ?frame⟩
  case frame => rw [extractPass_frame]; rfl

/-! ## The stream of an embedded grid -/

/-- Bit `i` of byte `k` of the stream is bit 0 of blue of the pixel `8k + 7 - i` (R115). -/
theorem getLsbD_streamByte (s : State) (k : Nat) (hi : i < 8) :
    (streamByte s k).getLsbD i = (readPix s (8 * k + (7 - i))).b.getLsbD 0 := by
  have hplaced : i < 8 ∧ 7 - i < 8 := by omega
  rw [streamByte, packedByte_bit _ 8 le_rfl, decide_eq_true hplaced, Bool.true_and]

/-- The pixel `8k + 7 - i` carries bit `i` of byte `k` (R65). -/
theorem getLsbD_payloadBit (S : Nat → Byte) (k : Nat) (hi : i < 8) :
    (payloadBit S (8 * k + (7 - i))).getLsbD 0 = (S k).getLsbD i := by
  have hbyte : (8 * k + (7 - i)) / 8 = k := by omega
  have hpos : 7 - (8 * k + (7 - i)) % 8 = i := by omega
  have hbit : (BitVec.ofNat 3 i).toNat = i := by rw [BitVec.toNat_ofNat]; omega
  rw [payloadBit, bitAt_eq, hbyte, hpos, hbit]
  cases (S k).getLsbD i <;> rfl

/-- A grid whose pixels carry the bits of `S` spells `S`: the extractor reads each bit where the embedder put it. -/
theorem streamByte_of_payloadBits
    (hbits : ∀ p < 8 * n, (readPix s p).b.getLsbD 0 = (payloadBit S p).getLsbD 0) (hk : k < n) :
    streamByte s k = S k := by
  apply BitVec.eq_of_getLsbD_eq
  intro i hi
  rw [getLsbD_streamByte s k hi, hbits _ (by omega), getLsbD_payloadBit S k hi]

theorem eq_of_exec_embed (h : s.InRange) (hfit : s.dlen * 8 ≤ gridSize s) (hexec : exec .embed s = .next t) :
    t = complete (embedPass s) := by
  rw [exec_embed h hfit] at hexec
  cases hexec
  rfl

/-- R119: the grid that EMBED leaves spells the embedded sequence. -/
theorem streamByte_embedPass (hfit : 8 * s.dlen ≤ gridSize s) (hk : k < s.dlen) :
    streamByte (embedPass s) k = readData s k := by
  refine streamByte_of_payloadBits (fun p hp => ?_) hk
  rw [readPix_embedPass_of_lt hfit hp, setLsb_lsb]

/-- The stream depends on the pixels alone. -/
theorem streamByte_congr (hpix : samePix s t) (k : Nat) : streamByte t k = streamByte s k := by
  simp only [streamByte, hpix _]

/-- Settles O27: EXTRACT stores the stream of the grid, which is the grid that EMBED left, and a sequence that fits
the grid is no longer than what the grid carries. -/
theorem extractAfterEmbedReturnsTheSequence : Obligations.ExtractAfterEmbedReturnsTheSequence := by
  intro s t v h (hfit : s.dlen * 8 ≤ gridSize s) hexec hv hwidth hheight hpix
  obtain rfl := eq_of_exec_embed h hfit hexec
  have hle : 8 * s.dlen ≤ gridSize s := by omega
  have hlen : s.dlen ≤ gridSize s / 8 := by omega
  have hgrid : gridSize v = gridSize s := by
    rw [gridSize, hwidth, hheight]
    exact gridSize_embedPass s
  have hdlen : (extractPass v).dlen = gridSize s / 8 := by rw [extractPass_dlen, hgrid]
  refine ⟨_, exec_extract hv, fun k hk => ?sequence, hdlen, hlen.trans hdlen.ge⟩
  case sequence =>
    calc readData (extractPass v) k
      _ = streamByte v k := readData_extractPass_of_lt (by omega)
      _ = streamByte (embedPass s) k := streamByte_congr hpix k
      _ = readData s k := streamByte_embedPass hle hk

end Sys2Proof.Machine

/-! What every command owes to the status fields: nothing, so a command that follows another's completion answers as it
would on the pass alone (60_exceptions.md R145). -/

namespace Sys2Proof.Machine

theorem passOf_withStatus (i : Instr) (e : Err) (b d : Bool) (s : State) :
    passOf i (withStatus e b d s) = withStatus e b d (passOf i s) := by
  cases i with
  | xor | encrypt | decrypt => exact cipherPass_withStatus e b d s
  | append => exact appendFrame_withStatus e b d s
  | locate => exact locateCut_withStatus e b d s
  | fits => rfl
  | embed => exact embedPass_withStatus e b d s
  | extract => exact extractPass_withStatus e b d s
  | hide => exact hidePass_withStatus e b d s
  | showMsg => exact showPass_withStatus e b d s

/-- R145: no command reads ERR, BUSY or DONE, and each writes all three. -/
theorem exec_withStatus (i : Instr) (e : Err) (b d : Bool) (s : State) : exec i (withStatus e b d s) = exec i s := by
  have herr : errorOf i (withStatus e b d s) = errorOf i s := by cases i <;> rfl
  have hext : extentsOf i (withStatus e b d s) = extentsOf i s := by cases i <;> rfl
  rw [exec_eq, exec_eq, herr, hext, passOf_withStatus]
  rfl

/-- A command run after another's completion answers as on that command's pass. -/
theorem exec_complete (i : Instr) (s : State) : exec i (complete s) = exec i s := exec_withStatus i .none false true s

end Sys2Proof.Machine

/-! HIDE: its checks, its end state, and that it is XOR, APPEND and EMBED in turn
(45_pipelines.md R121 to R125). -/

namespace Sys2Proof.Machine

variable {s : State} {j p : Nat}

/-! ## The command -/

/-- R122: the key check is the first. -/
theorem exec_hide_emptyKey (hkey : s.klen = 0) : exec .hide s = .next (raise .key s) := by
  have herr : errorOf .hide s = .key := if_pos hkey
  rw [exec_of_error (by simp [herr]), herr]

/-- R121: with a key, the capacity check on the framed length. -/
theorem exec_hide_capacity (hkey : 1 ≤ s.klen) (hover : gridSize s < (s.dlen + 3) * 8) :
    exec .hide s = .next (raise .capacity s) := by
  have herr : errorOf .hide s = .capacity := (if_neg (Nat.ne_of_gt hkey)).trans (if_pos hover)
  rw [exec_of_error (by simp [herr]), herr]

/-- R121: in range, with a key and a frame that fits, the command is its stages and the completion. -/
theorem exec_hide (h : s.InRange) (hkey : 1 ≤ s.klen) (hfit : (s.dlen + 3) * 8 ≤ gridSize s) :
    exec .hide s = .next (complete (hidePass s)) := by
  have hok : errorOf .hide s = .none := errorOf_hide_eq_none.2 ⟨Nat.ne_of_gt hkey, hfit⟩
  exact exec_of_fit hok (extentsFit_of_inRange h hok)

/-- Settles O29. -/
theorem hideAbortsBeforeItWrites : Obligations.HideAbortsBeforeItWrites :=
  fun _ => ⟨exec_hide_emptyKey, exec_hide_capacity⟩

/-! ## The end state -/

@[simp] theorem readKey_hidePass (s : State) (j : Nat) : readKey (hidePass s) j = readKey s j := by
  obtain ⟨_, _, _, _, hhide⟩ := hidePass_changes s
  rw [hhide, readKey, readKey]

@[simp] theorem gridSize_hidePass (s : State) : gridSize (hidePass s) = gridSize s := by
  obtain ⟨_, _, _, _, hhide⟩ := hidePass_changes s
  rw [hhide, gridSize, gridSize]

@[simp] theorem hidePass_klen (s : State) : (hidePass s).klen = s.klen := by
  obtain ⟨_, _, _, _, hhide⟩ := hidePass_changes s
  rw [hhide]

section
variable (hfit : (s.dlen + 3) * 8 ≤ gridSize s)
include hfit

theorem readData_hidePass_of_lt (hj : j < s.dlen) :
    readData (hidePass s) j = readData s j ^^^ readKey s (j % s.klen) := by
  rw [readData_hidePass hfit, if_neg (by omega), if_neg (by omega), if_neg (by omega), if_pos hj, keyByteFor]

theorem readData_hidePass_of_ge (hj : s.dlen + 3 ≤ j) : readData (hidePass s) j = readData s j := by
  rw [readData_hidePass hfit, if_neg (by omega), if_neg (by omega), if_neg (by omega), if_neg (by omega)]

theorem readData_hidePass_terminator : readData (hidePass s) s.dlen = 0x00 ∧
    readData (hidePass s) (s.dlen + 1) = 0x00 ∧ readData (hidePass s) (s.dlen + 2) = 0x03 := by
  simp [readData_hidePass hfit]

theorem readPix_hidePass_of_lt (hp : p < 8 * (s.dlen + 3)) :
    readPix (hidePass s) p =
      { readPix s p with b := setLsb (readPix s p).b (payloadBit (readData (hidePass s)) p) } := by
  rw [readPix_hidePass hfit, if_pos hp]

theorem readPix_hidePass_of_ge (hp : 8 * (s.dlen + 3) ≤ p) : readPix (hidePass s) p = readPix s p := by
  rw [readPix_hidePass hfit, if_neg (Nat.not_lt.2 hp)]

end

/-- Settles O28: the completed stages, byte by byte and pixel by pixel, with their frame. -/
theorem hideEmbedsTheEncryptedFrame : Obligations.HideEmbedsTheEncryptedFrame := by
  intro s h hkey (hfit : (s.dlen + 3) * 8 ≤ gridSize s)
  obtain ⟨hfirst, hsecond, hthird⟩ := readData_hidePass_terminator hfit
  refine ⟨_, exec_hide h hkey hfit, fun j hj => readData_hidePass_of_lt hfit hj, hfirst, hsecond, hthird,
    fun j hj => readData_hidePass_of_ge hfit hj, ?embedded, fun p hp => readPix_hidePass_of_ge hfit hp,
    readKey_hidePass s, ?frame⟩
  case embedded =>
    intro p hp
    rw [readPix_complete, readPix_hidePass_of_lt hfit hp]
    exact ⟨rfl, rfl, rfl⟩
  case frame => rw [hidePass_frame hfit]; rfl

/-! ## The three commands in turn -/

@[simp] theorem gridSize_cipherPass (s : State) : gridSize (cipherPass s) = gridSize s := by
  rw [cipherPass_frame, gridSize, gridSize]

/-- R123: a frame that fits the grid fits DATA. -/
theorem frame_le_dmax (h : s.InRange) (hfit : (s.dlen + 3) * 8 ≤ gridSize s) : s.dlen + 3 ≤ s.cfg.dmax := by
  have hbytes := gridSize_div_le_dmax h
  omega

/-- Settles O30: each command answers the pass that `hidePass` runs at its place, so the last answers `hidePass`. -/
theorem hideIsXorAppendEmbed : Obligations.HideIsXorAppendEmbed := by
  intro s h hkey (hfit : (s.dlen + 3) * 8 ≤ gridSize s)
  have hroom : (cipherPass s).dlen + 3 ≤ (cipherPass s).cfg.dmax := by
    rw [cipherPass_frame]
    exact frame_le_dmax h hfit
  have hframed : (appendFrame (cipherPass s)).dlen * 8 ≤ gridSize (appendFrame (cipherPass s)) := by
    rw [appendFrame_frame, cipherPass_frame]
    exact hfit
  have hrange : (appendFrame (cipherPass s)).InRange := appendFrame_inRange (cipherPass_inRange h) hroom
  refine ⟨_, complete (appendFrame (cipherPass s)), complete (hidePass s), exec_cipher (.inl rfl) h hkey, ?append,
    ?embed, exec_hide h hkey hfit⟩
  case append => rw [exec_complete, exec_append hroom]
  case embed => rw [exec_complete, exec_embed hrange hframed, hidePass]

end Sys2Proof.Machine

/-! SHOW: its end state, that it is EXTRACT, LOCATE and XOR in turn, and what its decisions depend on
(45_pipelines.md R127 to R130, R133). -/

namespace Sys2Proof.Machine

variable {S T A B : Nat → Byte} {s t : State} {i j k m n : Nat}

/-! ## The command -/

/-- R127: in range and with a key, the command is its stages and the completion. -/
theorem exec_show (h : s.InRange) (hkey : 1 ≤ s.klen) : exec .showMsg s = .next (complete (showPass s)) := by
  have hok : errorOf .showMsg s = .none := if_neg (Nat.ne_of_gt hkey)
  exact exec_of_fit hok (extentsFit_of_inRange h hok)

/-! ## What the stages keep -/

@[simp] theorem readKey_locateCut (s : State) (j : Nat) : readKey (locateCut s) j = readKey s j := by
  rw [(locateCut_frame s).1, readKey, readKey]

@[simp] theorem readData_locateCut (s : State) (j : Nat) : readData (locateCut s) j = readData s j := by
  rw [(locateCut_frame s).1, readData, readData]

@[simp] theorem locateCut_klen (s : State) : (locateCut s).klen = s.klen := by rw [(locateCut_frame s).1]

@[simp] theorem extractPass_klen (s : State) : (extractPass s).klen = s.klen := by rw [extractPass_frame]

@[simp] theorem readKey_showPass (s : State) (j : Nat) : readKey (showPass s) j = readKey s j := by simp [showPass]

@[simp] theorem readPix_showPass (s : State) (p : Nat) : readPix (showPass s) p = readPix s p := by
  rw [showPass_frame, readPix, readPix]

theorem extractPass_inRange (h : s.InRange) : (extractPass s).InRange :=
  passOf_inRange h (extentsFit_of_inRange (i := .extract) h rfl)

theorem locateCut_inRange (h : s.InRange) : (locateCut s).InRange :=
  passOf_inRange h (extentsFit_of_inRange (i := .locate) h rfl)

/-! ## The cut of the extracted stream -/

/-- A first marker is decided by the bytes up to its end. -/
theorem firstMarker_of_agree (hi : firstMarker S m i) (hlt : i < n) (hagree : ∀ j ≤ i, T j = S j) :
    firstMarker T n i := by
  obtain ⟨-, ⟨htwo, hmark⟩, hleast⟩ := hi
  refine ⟨hlt, ?mark, fun j hj => ?least⟩
  case mark =>
    rw [markerEndsAt, hagree i le_rfl, hagree (i - 1) (by omega), hagree (i - 2) (by omega)]
    exact ⟨htwo, hmark⟩
  case least =>
    have hnot := hleast j hj
    rwa [markerEndsAt, ← hagree j (by omega), ← hagree (j - 1) (by omega), ← hagree (j - 2) (by omega)] at hnot

/-- R129: the stream's first terminator is where LOCATE cuts what EXTRACT has stored. -/
theorem locateIn_extractPass_of_firstMarker (hi : firstMarker (streamByte s) (gridSize s / 8) i) :
    locateIn (extractPass s) = some i := by
  have hlt : i < gridSize s / 8 := hi.1
  refine locateIn_of_firstMarker (firstMarker_of_agree hi (by simpa using hlt) fun j hj => ?_)
  exact readData_extractPass_of_lt (by omega)

theorem locateIn_extractPass_of_noMarker (hnone : noMarker (streamByte s) (gridSize s / 8)) :
    locateIn (extractPass s) = none := by
  refine locateIn_of_noMarker ?_
  rw [extractPass_dlen]
  exact (noMarker_congr fun _ => readData_extractPass_of_lt).2 hnone

theorem showPass_found (hi : firstMarker (streamByte s) (gridSize s / 8) i) :
    (showPass s).found = true ∧ (showPass s).locIdx = i ∧ (showPass s).dlen = i - 2 := by
  rw [showPass_frame, locateCut_found (locateIn_extractPass_of_firstMarker hi)]
  exact ⟨rfl, rfl, rfl⟩

theorem showPass_notFound (hnone : noMarker (streamByte s) (gridSize s / 8)) :
    (showPass s).found = false ∧ (showPass s).locIdx = 0 ∧ (showPass s).dlen = 0 := by
  rw [showPass_frame, locateCut_notFound (locateIn_extractPass_of_noMarker hnone)]
  exact ⟨rfl, rfl, rfl⟩

/-- The end cursor and the partial byte of EXTRACT, which no later stage writes (R116, R129). -/
theorem showPass_cursor (s : State) :
    (showPass s).byteIdx = gridSize s / 8 ∧ (showPass s).bitPos = BitVec.ofNat 3 (7 - gridSize s % 8) ∧
      (showPass s).pixIdx = gridSize s ∧
      (showPass s).acc = packedByte (fun j => (readPix s (8 * (gridSize s / 8) + j)).b) (gridSize s % 8) := by
  rw [showPass_frame]
  exact ⟨rfl, rfl, rfl, rfl⟩

/-! ## DATA -/

/-- The last stage decrypts the bytes that the cut has left (R127). -/
theorem readData_showPass (s : State) (j : Nat) :
    readData (showPass s) j =
      if j < (showPass s).dlen then readData (extractPass s) j ^^^ readKey s (j % s.klen)
      else readData (extractPass s) j := by
  simp [showPass, readData_cipherPass, keyByteFor]

theorem readData_showPass_decrypted (hcut : j < (showPass s).dlen) (hj : j < gridSize s / 8) :
    readData (showPass s) j = streamByte s j ^^^ readKey s (j % s.klen) := by
  rw [readData_showPass, if_pos hcut, readData_extractPass_of_lt hj]

theorem readData_showPass_beyond_cut (hcut : (showPass s).dlen ≤ j) (hj : j < gridSize s / 8) :
    readData (showPass s) j = streamByte s j := by
  rw [readData_showPass, if_neg (Nat.not_lt.2 hcut), readData_extractPass_of_lt hj]

theorem showPass_dlen_le (s : State) : (showPass s).dlen ≤ gridSize s / 8 := by
  rw [showPass_frame, ← extractPass_dlen]
  exact (locateCut_frame (extractPass s)).2

theorem readData_showPass_of_ge (hj : gridSize s / 8 ≤ j) : readData (showPass s) j = readData s j := by
  have hcut := showPass_dlen_le s
  rw [readData_showPass, if_neg (by omega), readData_extractPass_of_ge hj]

/-- Settles O31: the completed stages, with the cut at the stream's first terminator or no cut, and their frame. -/
theorem showRecoversUpToTheFirstMarker : Obligations.ShowRecoversUpToTheFirstMarker := by
  intro s h hkey
  refine ⟨_, exec_show h hkey, fun i hi => ?found, fun hnone => ?notFound, fun j hj => readData_showPass_of_ge hj,
    readKey_showPass s, readPix_showPass s, ?frame⟩
  case found =>
    obtain ⟨hfound, hloc, hlen⟩ := showPass_found hi
    have hlt : i < gridSize s / 8 := hi.1
    exact ⟨hfound, hloc, hlen, fun j hj => readData_showPass_decrypted (by omega) (by omega),
      fun j hj hlow => readData_showPass_beyond_cut (by omega) hlow⟩
  case notFound =>
    obtain ⟨hfound, hloc, hlen⟩ := showPass_notFound hnone
    exact ⟨hfound, hloc, hlen, fun j hj => readData_showPass_beyond_cut (by omega) hj⟩
  case frame => rw [showPass_frame]; rfl

/-- Settles O32: each command answers the pass that `showPass` runs at its place, so the last answers `showPass`. -/
theorem showIsExtractLocateXor : Obligations.ShowIsExtractLocateXor := by
  intro s h hkey
  have hkeyed : 1 ≤ (locateCut (extractPass s)).klen := by simpa using hkey
  have hextracted := extractPass_inRange h
  refine ⟨_, complete (locateCut (extractPass s)), complete (showPass s), exec_extract h, ?locate, ?xor,
    exec_show h hkey⟩
  case locate => rw [exec_complete, exec_locate hextracted]
  case xor => rw [exec_complete, exec_cipher (.inl rfl) (locateCut_inRange hextracted) hkeyed, showPass]

/-! ## What the decisions depend on -/

/-- A packed byte depends on bit 0 of its blue values alone. -/
theorem packedByte_congr (hm : m ≤ 8) (hbits : ∀ j < m, (B j).getLsbD 0 = (A j).getLsbD 0) :
    packedByte B m = packedByte A m := by
  apply BitVec.eq_of_getLsbD_eq
  intro i hi
  rw [packedByte_bit B m hm, packedByte_bit A m hm]
  by_cases hplaced : i < 8 ∧ 7 - i < m
  · rw [hbits _ hplaced.2]
  · rw [decide_eq_false hplaced, Bool.false_and, Bool.false_and]

section
variable (hbits : ∀ p < n, (readPix t p).b.getLsbD 0 = (readPix s p).b.getLsbD 0)
include hbits

theorem streamByte_congr_of_lsb (hk : k < n / 8) : streamByte t k = streamByte s k :=
  packedByte_congr le_rfl fun _ hj => hbits _ (by omega)

theorem partialByte_congr_of_lsb :
    packedByte (fun j => (readPix t (8 * (n / 8) + j)).b) (n % 8) =
      packedByte (fun j => (readPix s (8 * (n / 8) + j)).b) (n % 8) :=
  packedByte_congr (by omega) fun _ hj => hbits _ (by omega)

end

/-- Where SHOW cuts is decided by the stream (R133). -/
theorem showPass_cut_congr (hgrid : gridSize t = gridSize s)
    (hstream : ∀ k < gridSize s / 8, streamByte t k = streamByte s k) :
    (showPass t).found = (showPass s).found ∧ (showPass t).locIdx = (showPass s).locIdx ∧
      (showPass t).dlen = (showPass s).dlen := by
  by_cases hnone : noMarker (streamByte s) (gridSize s / 8)
  · obtain ⟨hfound, hloc, hlen⟩ := showPass_notFound hnone
    obtain ⟨hfound', hloc', hlen'⟩ := showPass_notFound (s := t) (by rwa [hgrid, noMarker_congr hstream])
    exact ⟨hfound'.trans hfound.symm, hloc'.trans hloc.symm, hlen'.trans hlen.symm⟩
  · obtain ⟨i, hi⟩ := exists_firstMarker hnone
    have hlt : i < gridSize s / 8 := hi.1
    have hi' : firstMarker (streamByte t) (gridSize t / 8) i :=
      firstMarker_of_agree hi (by rwa [hgrid]) fun j hj => hstream j (by omega)
    obtain ⟨hfound, hloc, hlen⟩ := showPass_found hi
    obtain ⟨hfound', hloc', hlen'⟩ := showPass_found hi'
    exact ⟨hfound'.trans hfound.symm, hloc'.trans hloc.symm, hlen'.trans hlen.symm⟩

/-- Settles O33: the cut is decided by the stream and the cursor by the size of the grid; the stream and the partial
byte are made of the bits 0 of blue. -/
theorem showDecisionsDependOnBlueBitsOnly : Obligations.ShowDecisionsDependOnBlueBitsOnly := by
  intro s s' h h' hkey hkey' (hgrid : gridSize s' = gridSize s) hbits
  obtain ⟨hfound, hloc, hlen⟩ := showPass_cut_congr hgrid fun _ => streamByte_congr_of_lsb hbits
  obtain ⟨hbyte, hpos, hpix, hacc⟩ := showPass_cursor s
  obtain ⟨hbyte', hpos', hpix', hacc'⟩ := showPass_cursor s'
  rw [hgrid] at hbyte' hpos' hpix' hacc'
  exact ⟨_, _, exec_show h hkey, exec_show h' hkey', hfound, hloc, hlen, hbyte'.trans hbyte.symm,
    hpos'.trans hpos.symm, hpix'.trans hpix.symm, (hacc'.trans (partialByte_congr_of_lsb hbits)).trans hacc.symm⟩

end Sys2Proof.Machine

/-! HIDE then SHOW: the stream of a grid that HIDE wrote, and the Message that SHOW recovers from it
(45_pipelines.md R131). -/

namespace Sys2Proof.Machine

variable {s t v : State} {i j k : Nat}

theorem eq_of_exec_hide (h : s.InRange) (hkey : 1 ≤ s.klen) (hfit : (s.dlen + 3) * 8 ≤ gridSize s)
    (hexec : exec .hide s = .next t) : t = complete (hidePass s) := by
  rw [exec_hide h hkey hfit] at hexec
  cases hexec
  rfl

section
variable (hfit : (s.dlen + 3) * 8 ≤ gridSize s)
include hfit

/-! ## The stream of the grid that HIDE leaves -/

/-- R124: the grid spells the Payload that HIDE leaves in DATA. -/
theorem streamByte_hidePass (hk : k < s.dlen + 3) : streamByte (hidePass s) k = readData (hidePass s) k := by
  refine streamByte_of_payloadBits (fun p hp => ?_) hk
  rw [readPix_hidePass_of_lt hfit hp, setLsb_lsb]

/-- The Payload starts with the ciphertext. -/
theorem streamByte_hidePass_of_lt (hk : k < s.dlen) :
    streamByte (hidePass s) k = readData s k ^^^ readKey s (k % s.klen) := by
  rw [streamByte_hidePass hfit (by omega), readData_hidePass_of_lt hfit hk]

/-- The Payload ends with the terminator. -/
theorem markerEndsAt_streamByte_hidePass : markerEndsAt (streamByte (hidePass s)) (s.dlen + 2) := by
  obtain ⟨hfirst, hsecond, hthird⟩ := readData_hidePass_terminator hfit
  refine ⟨Nat.le_add_left 2 _, ?_, ?_, ?_⟩
  · rwa [streamByte_hidePass hfit (by omega)]
  · rwa [Nat.add_succ_sub_one, streamByte_hidePass hfit (by omega)]
  · rwa [Nat.add_sub_cancel, streamByte_hidePass hfit (by omega)]

/-- R131: the terminator is the first in the stream when the ciphertext holds none. -/
theorem firstMarker_hidePass_own (hnone : noMarker (fun k => readData s k ^^^ readKey s (k % s.klen)) s.dlen) :
    firstMarker (streamByte (hidePass s)) (gridSize (hidePass s) / 8) (s.dlen + 2) := by
  rw [gridSize_hidePass, firstMarker_frame_iff (markerEndsAt_streamByte_hidePass hfit) (by omega)]
  exact (noMarker_congr fun _ => streamByte_hidePass_of_lt hfit).2 hnone

/-- R131: otherwise the first is the ciphertext's. -/
theorem firstMarker_hidePass_earlier
    (hj : firstMarker (fun k => readData s k ^^^ readKey s (k % s.klen)) s.dlen j) :
    firstMarker (streamByte (hidePass s)) (gridSize (hidePass s) / 8) j := by
  have hlt : j < s.dlen := hj.1
  rw [gridSize_hidePass]
  exact firstMarker_of_agree hj (by omega) fun k hk => streamByte_hidePass_of_lt hfit (by omega)

/-- R79: the key that has encrypted a byte decrypts it. -/
theorem readData_showPass_of_hidden (hgrid : gridSize v = gridSize s) (hklen : v.klen = s.klen)
    (hpix : samePix (hidePass s) v) (hkey : sameKey s v) (hk : k < s.dlen) (hcut : k < (showPass v).dlen) :
    readData (showPass v) k = readData s k := by
  rw [readData_showPass_decrypted hcut (by omega), streamByte_congr hpix, streamByte_hidePass_of_lt hfit hk, hklen,
    hkey, BitVec.xor_assoc, BitVec.xor_self, BitVec.xor_zero]

end

/-- What SHOW finds in a grid that reads as another state's (R133). -/
theorem showPass_found_of_samePix (hgrid : gridSize v = gridSize s) (hpix : samePix s v)
    (hi : firstMarker (streamByte s) (gridSize s / 8) i) :
    (showPass v).found = true ∧ (showPass v).locIdx = i ∧ (showPass v).dlen = i - 2 := by
  refine showPass_found ?_
  rwa [hgrid, funext (streamByte_congr hpix)]

/-- Settles O34: the stream of the grid is the Payload, whose first terminator is its own or the ciphertext's first;
below the cut, SHOW decrypts what HIDE encrypted. -/
theorem hideThenShowRoundTrip : Obligations.HideThenShowRoundTrip := by
  intro s t v h hkey (hfit : (s.dlen + 3) * 8 ≤ gridSize s) hexec hv hwidth hheight hklen hpix hkeys
  obtain rfl := eq_of_exec_hide h hkey hfit hexec
  have hgrid : gridSize v = gridSize (hidePass s) := by rw [gridSize, hwidth, hheight]; rfl
  have hsize : gridSize v = gridSize s := hgrid.trans (gridSize_hidePass s)
  have hlen : v.klen = s.klen := hklen.trans (hidePass_klen s)
  have hsame : sameKey s v := fun k => (hkeys k).trans (readKey_hidePass s k)
  have hmessage : ∀ k < s.dlen, k < (showPass v).dlen → readData (showPass v) k = readData s k :=
    fun _ => readData_showPass_of_hidden hfit hsize hlen hpix hsame
  refine ⟨_, exec_show hv (by rwa [hlen]), ?found, fun hnone => ?own, fun j hj => ?earlier⟩
  case found =>
    have hlow : s.dlen + 2 < gridSize (hidePass s) / 8 := by
      rw [gridSize_hidePass]
      omega
    obtain ⟨i, hi⟩ : ∃ i, firstMarker (streamByte (hidePass s)) (gridSize (hidePass s) / 8) i :=
      exists_firstMarker fun hnone => hnone _ hlow (markerEndsAt_streamByte_hidePass hfit)
    exact (showPass_found_of_samePix hgrid hpix hi).1
  case own =>
    obtain ⟨-, hloc, hcut⟩ := showPass_found_of_samePix hgrid hpix (firstMarker_hidePass_own hfit hnone)
    exact ⟨by simpa using hcut, hloc, fun k hk => hmessage k hk (by omega)⟩
  case earlier =>
    obtain ⟨-, hloc, hcut⟩ := showPass_found_of_samePix hgrid hpix (firstMarker_hidePass_earlier hfit hj)
    have hlt : j < s.dlen := hj.1
    exact ⟨hcut, hloc, fun k hk => hmessage k (by omega) (by omega)⟩

end Sys2Proof.Machine

/-! The errors: which command raises which and when, what an abort changes, what the error depends on and what it leaves
to the next command (60_exceptions.md R135, R136, R142, R144, R145, R149). -/

namespace Sys2Proof.Machine

variable {i : Instr} {s t : State}

/-! ## The error of a command -/

/-- The ERR of an answered command is the error its checks find. -/
theorem err_of_exec (hexec : exec i s = .next t) : t.err = errorOf i s := by
  rcases exec_next hexec with ⟨-, rfl⟩ | ⟨hok, rfl⟩
  · rfl
  · exact hok.symm

/-- R136, R142: the key check is the first of every command that runs the cipher, so no other check hides it. -/
theorem errorOf_eq_key_iff : errorOf i s = .key ↔ (isCipher i ∨ i = .hide ∨ i = .showMsg) ∧ s.klen = 0 := by
  cases i <;> simp [errorOf, ite_eq_iff, isCipher]

/-- R102, R122: the capacity check is EMBED's only check and HIDE's second. -/
theorem errorOf_eq_capacity_iff :
    errorOf i s = .capacity ↔ (i = .embed ∧ gridSize s < s.dlen * 8) ∨
      (i = .hide ∧ s.klen ≠ 0 ∧ gridSize s < (s.dlen + 3) * 8) := by
  cases i <;> simp [errorOf, ite_eq_iff]

/-- R85, R123: APPEND alone raises E_OVERFLOW. -/
theorem errorOf_eq_overflow_iff : errorOf i s = .overflow ↔ i = .append ∧ s.cfg.dmax < s.dlen + 3 := by
  cases i <;> simp [errorOf, ite_eq_iff]

/-- R137: E_ILLEGAL is the error of a word that is no command. -/
theorem errorOf_ne_illegal (i : Instr) (s : State) : errorOf i s ≠ .illegal := by
  cases i <;> simp [errorOf, ite_eq_iff]

/-- Settles O36: each line is the line of that error for the checks of the command. -/
theorem errorsAreRaisedExactlyAsListed : Obligations.ErrorsAreRaisedExactlyAsListed := by
  intro i s t hexec
  rw [err_of_exec hexec]
  exact ⟨errorOf_eq_key_iff, errorOf_eq_capacity_iff, errorOf_eq_overflow_iff, errorOf_ne_illegal i s⟩

/-- Settles O14: the error is E_KEY, and a command with an error raises it and does nothing else. -/
theorem emptyKeyAbortsEveryCipherCommand : Obligations.EmptyKeyAbortsEveryCipherCommand := by
  intro i s hi hkey
  have herr : errorOf i s = .key := errorOf_eq_key_iff.2 ⟨hi, hkey⟩
  rw [exec_of_error (by simp [herr]), herr]
  rfl

/-! ## The error of an accepted word -/

/-- R144: a command that ends in an error raises it and changes nothing else. -/
theorem exec_abort (hexec : exec i s = .next t) (herr : t.err ≠ .none) : t = raise t.err s := by
  rcases exec_next hexec with ⟨-, rfl⟩ | ⟨-, rfl⟩
  · rfl
  · exact absurd rfl herr

/-- The error the accepted word ends in: its command's, or E_ILLEGAL when it is no command (R135, R137). -/
def runError (s : State) : Err :=
  match decode (fetchWord s) with
  | .ok i => errorOf i s
  | .error _ => .illegal

/-- What an accepted word can answer: what its command answers, or E_ILLEGAL when it is no command (R60, R67). -/
theorem runAccepted_next (hrun : runAccepted s = .next t) :
    (∃ i, decode (fetchWord s) = .ok i ∧ exec i s = .next t) ∨
      ∃ e, decode (fetchWord s) = .error e ∧ t = raise .illegal s := by
  unfold runAccepted at hrun
  split at hrun
  · next i hdec => exact .inl ⟨i, hdec, hrun⟩
  · next e hdec => cases hrun; exact .inr ⟨e, hdec, rfl⟩

/-- The ERR of a completed word is the error it ends in. -/
theorem err_of_runAccepted (hrun : runAccepted s = .next t) : t.err = runError s := by
  rcases runAccepted_next hrun with ⟨i, hdec, hexec⟩ | ⟨e, hdec, rfl⟩
  · rw [runError, hdec, err_of_exec hexec]
  · rw [runError, hdec, raise_err]

/-- R144: a word, legal or not, that ends in an error raises it and changes nothing else. -/
theorem runAccepted_abort (hrun : runAccepted s = .next t) (herr : t.err ≠ .none) : t = raise t.err s := by
  rcases runAccepted_next hrun with ⟨i, -, hexec⟩ | ⟨e, -, rfl⟩
  · exact exec_abort hexec herr
  · rfl

/-- Settles O35: an abort is `raise`, and after the acceptance it leaves LASTCMD as the acceptance wrote it and BUSY
as it was before. -/
theorem abortChangesOnlyTheStatus : Obligations.AbortChangesOnlyTheStatus := by
  refine ⟨fun i s t => exec_abort, fun s u t w rest hidle hs haccept hcomplete herr => ?_⟩
  rw [step_cmd_idle hidle hs] at haccept
  cases haccept
  rw [step_sequencer rfl, sequencerMove_busy rfl] at hcomplete
  calc t = raise t.err (accept w { s with schedule := rest }) := runAccepted_abort hcomplete herr
    _ = { s with schedule := rest, err := t.err, done := true, lastCmd := w } := by rw [raise, accept, hidle]

/-! ## What the error depends on -/

section
variable (hcfg : t.cfg = s.cfg) (hklen : t.klen = s.klen) (hdlen : t.dlen = s.dlen) (hwidth : t.width = s.width)
  (hheight : t.height = s.height)
include hcfg hklen hdlen hwidth hheight

/-- R149: the checks of a command read the lengths and the grid and nothing else. -/
theorem errorOf_congr (i : Instr) : errorOf i t = errorOf i s := by
  have hgrid : gridSize t = gridSize s := by rw [gridSize, gridSize, hwidth, hheight]
  unfold errorOf
  rw [hcfg, hklen, hdlen, hgrid]

theorem runError_congr (hcmd : t.lastCmd = s.lastCmd) : runError t = runError s := by
  unfold runError
  rw [fetchWord, fetchWord, hcmd]
  split
  · exact errorOf_congr hcfg hklen hdlen hwidth hheight _
  · rfl

end

/-- Settles O37: both words run to the error of the same checks. -/
theorem errorDependsOnTheLengthsOnly : Obligations.ErrorDependsOnTheLengthsOnly := by
  intro s s' t t' hbusy hbusy' hs hs' hcfg hcmd hklen hdlen hwidth hheight hstep hstep'
  rw [step_nil hs, sequencerMove_busy hbusy] at hstep
  rw [step_nil hs', sequencerMove_busy hbusy'] at hstep'
  calc t'.err = runError s' := err_of_runAccepted hstep'
    _ = runError s := runError_congr hcfg hklen hdlen hwidth hheight hcmd
    _ = t.err := (err_of_runAccepted hstep).symm

/-! ## How long an error lasts -/

/-- ERR and DONE read as before. -/
abbrev sameErrDone (s t : State) : Prop := t.err = s.err ∧ t.done = s.done

/-- A write that its range check may drop (R15, R48, R54). -/
theorem sameErrDone_checkedWrite {c : Prop} [Decidable c] (hwrite : sameErrDone s t) :
    sameErrDone s (if c then t else s) := by
  split
  · exact hwrite
  · exact ⟨rfl, rfl⟩

/-- R145: no register but CMD touches ERR and DONE. -/
theorem sameErrDone_regWrite {idx : Nat} (hother : idx ≠ 0) (v : Word) : sameErrDone s (regWrite s idx v) := by
  unfold regWrite
  split
  · exact absurd rfl hother
  · exact sameErrDone_checkedWrite ⟨rfl, rfl⟩
  · exact sameErrDone_checkedWrite ⟨rfl, rfl⟩
  · exact sameErrDone_checkedWrite ⟨rfl, rfl⟩
  · exact sameErrDone_checkedWrite ⟨rfl, rfl⟩
  · exact ⟨rfl, rfl⟩

theorem sameErrDone_elementWrite {sel : Region} {idx : Nat} (hother : sel = .reg → idx ≠ 0) (v : Word) :
    sameErrDone s (elementWrite s sel idx v) := by
  cases sel with
  | reg => exact sameErrDone_regWrite (hother rfl) v
  | key | data | pix => exact sameErrDone_checkedWrite ⟨rfl, rfl⟩

/-- R145: a host access other than a CMD write keeps both, busy or idle. -/
theorem sameErrDone_hostAccess {a : Access} (hother : ∀ v, a ≠ .write .reg 0 v) :
    sameErrDone s (hostAccess a s) := by
  cases a with
  | write sel idx v =>
    have hnotCmd : sel = .reg → idx.toNat ≠ 0 := fun hsel hidx =>
      hother v (by rw [hsel, BitVec.eq_of_toNat_eq (y := 0) hidx])
    rw [hostAccess, hostWrite]
    split
    · exact ⟨rfl, rfl⟩
    · exact sameErrDone_elementWrite hnotCmd v
  | read sel idx => rw [hostAccess, hostRead_frame]; exact ⟨rfl, rfl⟩

/-- Settles O38: the acceptance clears both, every other access keeps both, and no command reads them. -/
theorem anErrorNeverAltersALaterCommand : Obligations.AnErrorNeverAltersALaterCommand := by
  intro i w s e d
  refine ⟨fun hidle => ?_, fun _ => sameErrDone_hostAccess, exec_withStatus i e s.busy d s⟩
  rw [hostWrite_cmd_idle hidle]
  exact ⟨rfl, rfl⟩

end Sys2Proof.Machine

/-! Reset, idling and progress: what the event reset gives, that an idle block rests, that an accepted word completes
and that no run from reset stops (70_reset_and_hazards.md R157 to R161, R172). -/

namespace Sys2Proof.Machine

variable {s : State}

/-! ## Reset and idling -/

/-- Settles O2: the event that comes next is the reset, and it reads the parameters, the epoch and the draws only. -/
theorem resetEventRestoresTheRegistersFromAnyState : Obligations.ResetEventRestoresTheRegistersFromAnyState :=
  fun _ _ hnext => step_cons hnext

/-- Settles O3: with no event and with time passing, the step is the move of an idle sequencer. -/
theorem idleBlockDoesNothing : Obligations.IdleBlockDoesNothing := fun s hidle =>
  ⟨fun hs => (step_nil hs).trans (sequencerMove_idle hidle),
    fun rest hs => (step_sequencer hs).trans (sequencerMove_idle (s := { s with schedule := rest }) hidle)⟩

/-! ## The completion of an accepted word -/

/-- R172: in range, the accepted word completes, whether or not it is a command's word. -/
theorem runAccepted_completes (h : s.InRange) :
    ∃ t, runAccepted s = .next t ∧ t.busy = false ∧ t.done = true ∧ t.lastCmd = s.lastCmd := by
  rw [runAccepted]
  cases decode (fetchWord s) with
  | ok i =>
    obtain ⟨t, hexec, -, hidle, hdone⟩ := noCommandLeavesItsBuffers i s h
    obtain ⟨-, -, -, -, hlast, -⟩ := commandsNeverWriteTheHostsOperands i s t hexec
    exact ⟨t, hexec, hidle, hdone, hlast⟩
  | error e => exact ⟨raise .illegal s, rfl, rfl, rfl, rfl⟩

/-- Settles O10: the first step accepts the word, and with no event left the second is the sequencer's move. -/
theorem everyAcceptedCommandCompletes : Obligations.EveryAcceptedCommandCompletes := by
  intro s w hrange hidle hs
  obtain ⟨t, hrun, hbusy, hdone, hlast⟩ := runAccepted_completes (s := accept w { s with schedule := [] }) hrange
  refine ⟨_, t, step_cmd_idle hidle hs, rfl, rfl, rfl, ?_, hbusy, hdone, hlast⟩
  rw [step_nil rfl, sequencerMove_busy rfl, hrun]

/-! ## Progress -/

theorem sequencerMove_answers (h : s.InRange) : ∃ t, sequencerMove s = .next t := by
  cases hbusy : s.busy with
  | false => exact ⟨s, sequencerMove_idle hbusy⟩
  | true =>
    obtain ⟨t, hrun, -⟩ := runAccepted_completes h
    exact ⟨t, (sequencerMove_busy hbusy).trans hrun⟩

/-- Only the sequencer's event can run a command; the host's accesses, resets and reads always answer. -/
theorem takeEvent_answers (e : Event) (h : s.InRange) : ∃ t, takeEvent e s = .next t := by
  cases e with
  | access a => exact ⟨hostAccess a s, rfl⟩
  | sequencer => exact sequencerMove_answers h
  | reset => exact ⟨takeReset s, rfl⟩
  | waitDone => exact ⟨pollStatus s, rfl⟩

/-- Settles O46: the ranges alone suffice, and the schedule is no part of them. -/
theorem noStepStopsInALegalState : Obligations.NoStepStopsInALegalState := by
  intro s hinv
  obtain ⟨hrange, -⟩ := hinv
  cases hs : s.schedule with
  | nil => rw [step_nil hs]; exact sequencerMove_answers hrange
  | cons e rest => rw [step_cons hs]; exact takeEvent_answers (s := { s with schedule := rest }) e hrange

/-- R160, R161: a run of any length from a legal state goes on and stays legal. -/
theorem run_legal (n : Nat) (hinv : s.Inv) (hcoh : s.Coherent) :
    ∃ t : State, Sys2Proof.core.run n s = .next t ∧ t.Inv ∧ t.Coherent := by
  induction n generalizing s with
  | zero => exact ⟨s, rfl, hinv, hcoh⟩
  | succ n ih =>
    obtain ⟨t, hstep⟩ := noStepStopsInALegalState s hinv
    rw [run_succ hstep]
    exact ih (everyStepKeepsTheInvariant s t hinv hstep) (everyStepKeepsTheResultsCoherent s t hcoh hstep)

/-- Settles O49: the state after reset is legal whatever events are to come. -/
theorem everyRunFromResetStaysLegal : Obligations.EveryRunFromResetStaysLegal := by
  intro p events n hlegal
  obtain ⟨hinv, hcoh⟩ := resetMeetsTheInvariant p hlegal
  exact run_legal (s := { State.resetFor p with schedule := events }) n hinv hcoh

end Sys2Proof.Machine
